-- ==== Sys2Proof/Word.lean ====
section
/-! DEFINITION. The word types of the CORE: bytes, 16-bit words, and the instruction's fields (spec/00_scope.md R7, R9; spec/30_encoding.md R61). -/

namespace Sys2Proof

/-- A byte: a general register, a timer, a memory cell (R7). -/
abbrev Byte := BitVec 8

/-- A 16-bit word: pc, I, a return address, an instruction word (R7, R24, R25, R60). -/
abbrev Word := BitVec 16

/-- A register index, from a 4-bit field, so always 0..15 (R23). -/
abbrev Reg := BitVec 4

/-- A 4-bit row count or sub-opcode (R61, field n). -/
abbrev Nibble := BitVec 4

/-- A 12-bit absolute address (R61, field nnn). -/
abbrev Addr12 := BitVec 12

/-- Register 15: the general register that is also the flag (R22). -/
abbrev VF : Reg := 0xF#4

end Sys2Proof
end

