-- ==== Sys2Proof/Machine/Flags.lean ====
section
/-! DEFINITION. The results and flags of the 8-bit unit, computed on unbounded naturals and narrowed at the end (spec/00_scope.md R10; 42_alu.md R100-R112; 44_display.md R131). -/

namespace Sys2Proof.Machine

/-- A flag as VF holds it: 0x00 or 0x01 (R107-R111, R131). -/
def flagByte (f : Bool) : Byte := if f then 1#8 else 0#8

/-- `trunc_8` (R10). -/
def trunc8 (n : Nat) : Byte := BitVec.ofNat 8 n

/-- The sum, mod 256 (R102, R107). -/
def addResult (a b : Byte) : Byte := trunc8 (a.toNat + b.toNat)

/-- Carry: the true sum exceeds 255 (R107). -/
def addCarry (a b : Byte) : Byte := flagByte (decide (a.toNat + b.toNat > 255))

/-- The difference a - b, mod 256 (R108, R110). -/
def subResult (a b : Byte) : Byte := trunc8 (a.toNat + 256 - b.toNat)

/-- NOT borrow of a - b: a ≥ b, equality included (R108, R110). -/
def subNoBorrow (a b : Byte) : Byte := flagByte (decide (a.toNat ≥ b.toNat))

/-- Shift right by one, bit 7 of the result 0 (R109). -/
def shrResult (a : Byte) : Byte := trunc8 (a.toNat / 2)

/-- The bit a right shift moves out, bit 0 (R109). -/
def shrFlag (a : Byte) : Byte := flagByte (a.getLsbD 0)

/-- Shift left by one, mod 256 (R111). -/
def shlResult (a : Byte) : Byte := trunc8 (a.toNat * 2)

/-- The bit a left shift moves out, bit 7 (R111). -/
def shlFlag (a : Byte) : Byte := flagByte (a.getLsbD 7)

end Sys2Proof.Machine
end

