-- ==== Sys2Proof/Syntax.lean ====
section
/-! DEFINITION. The instructions: one constructor per row of spec/opcode_table.json (spec/30_encoding.md R63, R64). The five UNHANDLED regions of R65 are rows of the table and constructors here, each carrying the 12 bits its report shows. -/

namespace Sys2Proof

/-- The 22 instructions of R2 and the 5 UNHANDLED regions of R65. -/
inductive Instr where
  /-- 00E0 (R125) -/
  | cls
  /-- 00EE (R90) -/
  | ret
  /-- 1nnn (R91) -/
  | jp (nnn : Addr12)
  /-- 2nnn (R92) -/
  | call (nnn : Addr12)
  /-- 3xnn (R93) -/
  | seImm (x : Reg) (nn : Byte)
  /-- 4xnn (R94) -/
  | sneImm (x : Reg) (nn : Byte)
  /-- 5xy0, and 5xyN with the low nibble ignored (R95, R66) -/
  | seReg (x y : Reg)
  /-- 6xnn (R101) -/
  | ldImm (x : Reg) (nn : Byte)
  /-- 7xnn (R102) -/
  | addImm (x : Reg) (nn : Byte)
  /-- 8xy0 (R103) -/
  | ldReg (x y : Reg)
  /-- 8xy1 (R104) -/
  | or (x y : Reg)
  /-- 8xy2 (R105) -/
  | and (x y : Reg)
  /-- 8xy3 (R106) -/
  | xor (x y : Reg)
  /-- 8xy4 (R107) -/
  | addReg (x y : Reg)
  /-- 8xy5 (R108) -/
  | sub (x y : Reg)
  /-- 8xy6 (R109) -/
  | shr (x y : Reg)
  /-- 8xy7 (R110) -/
  | subn (x y : Reg)
  /-- 8xyE (R111) -/
  | shl (x y : Reg)
  /-- 9xy0, and 9xyN with the low nibble ignored (R96, R66) -/
  | sneReg (x y : Reg)
  /-- Annn (R120) -/
  | ldI (nnn : Addr12)
  /-- Bnnn (R121) -/
  | ldIV0 (nnn : Addr12)
  /-- Dxyn (R126) -/
  | drw (x y : Reg) (n : Nibble)
  /-- 0nnn other than 00E0 and 00EE (R65) -/
  | unhandled0 (low : BitVec 12)
  /-- 8xyN with N in 8..D or F (R65) -/
  | unhandled8 (low : BitVec 12)
  /-- class C (R65) -/
  | unhandledC (low : BitVec 12)
  /-- class E (R65) -/
  | unhandledE (low : BitVec 12)
  /-- class F (R65) -/
  | unhandledF (low : BitVec 12)
deriving DecidableEq, Repr

end Sys2Proof
end

