-- ==== Sys2Proof/WellFormed.lean ====
section
/-! DEFINITION. Which instruction terms stand for a word of their own row (spec/30_encoding.md R65). Field widths are in the types; the only terms that stand for no word of their row are UNHANDLED terms whose bits spell an instruction. -/

namespace Sys2Proof

/-- The low nibbles of class 8 that select an operation (R63). -/
def isAluOp (n : Nibble) : Bool := decide (n.toNat ≤ 7) || n == 0xE#4

/-- A term is well formed if its bits fall in its own row of the table: every term is, except an `unhandled0` that spells
00E0 or 00EE and an `unhandled8` whose low nibble selects an operation (R63, R65). -/
def Instr.wellFormed : Instr → Bool
  | .unhandled0 low => low != 0x0E0#12 && low != 0x0EE#12
  | .unhandled8 low => !isAluOp (low.extractLsb' 0 4)
  | .cls | .ret => true
  | .jp _ | .call _ | .ldI _ | .ldIV0 _ => true
  | .seImm _ _ | .sneImm _ _ | .ldImm _ _ | .addImm _ _ => true
  | .seReg _ _ | .sneReg _ _ | .ldReg _ _ | .or _ _ | .and _ _ | .xor _ _ => true
  | .addReg _ _ | .sub _ _ | .shr _ _ | .subn _ _ | .shl _ _ => true
  | .drw _ _ _ => true
  | .unhandledC _ | .unhandledE _ | .unhandledF _ => true

end Sys2Proof
end

