-- ==== Sys2Proof/Decode.lean ====
section
/-! DEFINITION. Decoding (spec/30_encoding.md R60-R67): total on words, rejecting by name a byte string with no whole word; and the encoder, written from the same table. -/

namespace Sys2Proof

/-- Field `class`, w[15:12] (R61). -/
def fieldClass (w : Word) : Nibble := w.extractLsb' 12 4

/-- Field `x`, w[11:8] (R61). -/
def fieldX (w : Word) : Reg := w.extractLsb' 8 4

/-- Field `y`, w[7:4] (R61). -/
def fieldY (w : Word) : Reg := w.extractLsb' 4 4

/-- Field `n`, w[3:0] (R61). -/
def fieldN (w : Word) : Nibble := w.extractLsb' 0 4

/-- Field `nn`, w[7:0] (R61). -/
def fieldNN (w : Word) : Byte := w.extractLsb' 0 8

/-- Field `nnn`, w[11:0] (R61). -/
def fieldNNN (w : Word) : Addr12 := w.extractLsb' 0 12

/-- Class 0: a full match against two words, every other word UNHANDLED (R63). -/
def decodeClass0 (w : Word) : Instr :=
  if w = 0x00E0#16 then .cls
  else if w = 0x00EE#16 then .ret
  else .unhandled0 (fieldNNN w)

/-- Class 8: the second dispatch, on the low nibble (R63). -/
def decodeClass8 (w : Word) : Instr :=
  match (fieldN w).toNat with
  | 0x0 => .ldReg (fieldX w) (fieldY w)
  | 0x1 => .or (fieldX w) (fieldY w)
  | 0x2 => .and (fieldX w) (fieldY w)
  | 0x3 => .xor (fieldX w) (fieldY w)
  | 0x4 => .addReg (fieldX w) (fieldY w)
  | 0x5 => .sub (fieldX w) (fieldY w)
  | 0x6 => .shr (fieldX w) (fieldY w)
  | 0x7 => .subn (fieldX w) (fieldY w)
  | 0xE => .shl (fieldX w) (fieldY w)
  | _ => .unhandled8 (fieldNNN w)

/-- The decoder of R63: every word is one of the 22 instructions or UNHANDLED. Classes 5 and 9 do not examine the low
nibble (R66, decision D11). The last arm is class F, the one class left. -/
def decodeWord (w : Word) : Instr :=
  match (fieldClass w).toNat with
  | 0x0 => decodeClass0 w
  | 0x1 => .jp (fieldNNN w)
  | 0x2 => .call (fieldNNN w)
  | 0x3 => .seImm (fieldX w) (fieldNN w)
  | 0x4 => .sneImm (fieldX w) (fieldNN w)
  | 0x5 => .seReg (fieldX w) (fieldY w)
  | 0x6 => .ldImm (fieldX w) (fieldNN w)
  | 0x7 => .addImm (fieldX w) (fieldNN w)
  | 0x8 => decodeClass8 w
  | 0x9 => .sneReg (fieldX w) (fieldY w)
  | 0xA => .ldI (fieldNNN w)
  | 0xB => .ldIV0 (fieldNNN w)
  | 0xC => .unhandledC (fieldNNN w)
  | 0xD => .drw (fieldX w) (fieldY w) (fieldN w)
  | 0xE => .unhandledE (fieldNNN w)
  | _ => .unhandledF (fieldNNN w)

/-- Why a byte string gives no instruction. -/
inductive DecodeError where
  /-- Fewer than the two bytes every instruction has (R60). -/
  | truncated
deriving DecidableEq, Repr

/-- Two bytes make a word, the first the high byte (R42). -/
def wordOfBytes (hi lo : Byte) : Word := hi ++ lo

/-- The high byte of a word, stored first (R42). -/
def highByte (w : Word) : Byte := w.extractLsb' 8 8

/-- The low byte of a word, stored second (R42). -/
def lowByte (w : Word) : Byte := w.extractLsb' 0 8

/-- Decode the first instruction of a byte string; the rest of the string comes back with it. A decoder always consumes
exactly 2 bytes (R60). -/
def decode : List Byte → Except DecodeError (Instr × List Byte)
  | hi :: lo :: rest => .ok (decodeWord (wordOfBytes hi lo), rest)
  | _ => .error .truncated

/-- The word of an instruction: the encodings of R64. Classes 5 and 9 get low nibble 0 (R68: "An assembler emits `5xy0` and
`9xy0` with low nibble 0"). -/
def encode : Instr → Word
  | .cls => 0x00E0#16
  | .ret => 0x00EE#16
  | .jp nnn => 0x1#4 ++ nnn
  | .call nnn => 0x2#4 ++ nnn
  | .seImm x nn => 0x3#4 ++ x ++ nn
  | .sneImm x nn => 0x4#4 ++ x ++ nn
  | .seReg x y => 0x5#4 ++ x ++ y ++ 0x0#4
  | .ldImm x nn => 0x6#4 ++ x ++ nn
  | .addImm x nn => 0x7#4 ++ x ++ nn
  | .ldReg x y => 0x8#4 ++ x ++ y ++ 0x0#4
  | .or x y => 0x8#4 ++ x ++ y ++ 0x1#4
  | .and x y => 0x8#4 ++ x ++ y ++ 0x2#4
  | .xor x y => 0x8#4 ++ x ++ y ++ 0x3#4
  | .addReg x y => 0x8#4 ++ x ++ y ++ 0x4#4
  | .sub x y => 0x8#4 ++ x ++ y ++ 0x5#4
  | .shr x y => 0x8#4 ++ x ++ y ++ 0x6#4
  | .subn x y => 0x8#4 ++ x ++ y ++ 0x7#4
  | .shl x y => 0x8#4 ++ x ++ y ++ 0xE#4
  | .sneReg x y => 0x9#4 ++ x ++ y ++ 0x0#4
  | .ldI nnn => 0xA#4 ++ nnn
  | .ldIV0 nnn => 0xB#4 ++ nnn
  | .drw x y n => 0xD#4 ++ x ++ y ++ n
  | .unhandled0 low => 0x0#4 ++ low
  | .unhandled8 low => 0x8#4 ++ low
  | .unhandledC low => 0xC#4 ++ low
  | .unhandledE low => 0xE#4 ++ low
  | .unhandledF low => 0xF#4 ++ low

/-- The two bytes of an instruction as memory holds them, high byte first (R42, R60). -/
def encodeBytes (i : Instr) : List Byte := [highByte (encode i), lowByte (encode i)]

/-- The word of a numeral of spec/opcode_table.json, whose bit 0 is the word's bit 0: the `nbits` low bits of `w`, every bit
above them 0. -/
def tableWord (nbits w : Nat) : Word := BitVec.ofNat 16 (w % 2 ^ nbits)

/-- The instruction the decoder reads from the bytes of a numeral of spec/opcode_table.json. -/
def decodeTableWord (nbits w : Nat) : Option Instr :=
  match decode [highByte (tableWord nbits w), lowByte (tableWord nbits w)] with
  | .ok (i, _) => some i
  | .error _ => none

end Sys2Proof
end

