-- ==== Sys2Proof/Config.lean ====
section
/-! DEFINITION. The fixed sizes of the CORE and its named parameters (spec/00_scope.md R7, R8). The values the model takes for open parameters stand in Machine/Defaults.lean. -/

namespace Sys2Proof

/-- MEM_SIZE (R7): the number of bytes of `M`. -/
abbrev memSize : Nat := 4096

/-- FB_W (R7): columns of the framebuffer. -/
abbrev fbWidth : Nat := 64

/-- FB_H (R7): rows of the framebuffer. -/
abbrev fbHeight : Nat := 32

/-- The length of FONT: 16 glyphs of 5 bytes (R31). -/
abbrev fontSize : Nat := 80

/-- BNNN_VARIANT (R8, R121, decision D8): the two drafts of Bnnn. -/
inductive BnnnVariant where
  /-- `I <- nnn + V0`, the default -/
  | iPlusV0
  /-- `I <- nnn` -/
  | iPlain
deriving DecidableEq, Repr

/-- The parameters of R8 that a step depends on ("The model takes STACK_DEPTH, FONT and BNNN_VARIANT as arguments").
FONT matters only at construction and is an argument of `State.construct`. -/
structure Params where
  /-- STACK_DEPTH, any integer ≥ 1 (R26, decision D1: OPEN) -/
  stackDepth : Nat
  /-- BNNN_VARIANT -/
  bnnnVariant : BnnnVariant
deriving DecidableEq, Repr

end Sys2Proof
end

