-- ==== Sys2Proof/Machine/Defaults.lean ====
section
/-! DEFINITION. The values this model takes for the parameters of spec/00_scope.md R8 at reset: FONT, FONT_BASE, LOAD_OFFSET, STACK_DEPTH and BNNN_VARIANT. They stand in a file of Machine/ so that a later repair may mend one. -/

namespace Sys2Proof.Machine

/-- FONT_BASE (R8, R31, decision D2, conflict C1). -/
def fontBase : Nat := 0x050

/-- LOAD_OFFSET (R8, R161, decision D4). -/
def loadOffset : Word := 0x200#16

/-- STACK_DEPTH at reset. DESIGN CHOICE (log 2): the spec leaves it OPEN (D1) and its test vectors use 16. -/
def defaultStackDepth : Nat := 16

/-- BNNN_VARIANT at reset: the spec's default (R8, R121, decision D8; log 3). -/
def defaultBnnnVariant : BnnnVariant := .iPlusV0

/-- The parameters of the machine after reset. -/
def defaultParams : Params := ⟨defaultStackDepth, defaultBnnnVariant⟩

/-- Glyphs 0 to 7 of the default FONT, five bytes each (R31; decision D3, which the spec marks as general knowledge, G1: log 4). -/
def fontGlyphs0to7 : List Byte :=
  [0xF0, 0x90, 0x90, 0x90, 0xF0] ++ [0x20, 0x60, 0x20, 0x20, 0x70]
  ++ [0xF0, 0x10, 0xF0, 0x80, 0xF0] ++ [0xF0, 0x10, 0xF0, 0x10, 0xF0]
  ++ [0x90, 0x90, 0xF0, 0x10, 0x10] ++ [0xF0, 0x80, 0xF0, 0x10, 0xF0]
  ++ [0xF0, 0x80, 0xF0, 0x90, 0xF0] ++ [0xF0, 0x10, 0x20, 0x40, 0x40]

/-- Glyphs 8 to F of the default FONT (R31). -/
def fontGlyphs8toF : List Byte :=
  [0xF0, 0x90, 0xF0, 0x90, 0xF0] ++ [0xF0, 0x90, 0xF0, 0x10, 0xF0]
  ++ [0xF0, 0x90, 0xF0, 0x90, 0x90] ++ [0xE0, 0x90, 0xE0, 0x90, 0xE0]
  ++ [0xF0, 0x80, 0x80, 0x80, 0xF0] ++ [0xE0, 0x90, 0x90, 0x90, 0xE0]
  ++ [0xF0, 0x80, 0xF0, 0x80, 0xF0] ++ [0xF0, 0x80, 0xF0, 0x80, 0x80]

/-- The default FONT: 16 glyphs of 5 bytes (R31, decision D3). -/
def fontTable : List Byte := fontGlyphs0to7 ++ fontGlyphs8toF

/-- What a byte of memory holds right after construction with the default FONT: FONT at FONT_BASE, zero elsewhere (R30, R31,
R34, R47). It is what an unlisted address of `Memory` reads as. -/
def unlistedByte (a : Nat) : Byte :=
  if fontBase ≤ a then fontTable.getD (a - fontBase) 0#8 else 0#8

end Sys2Proof.Machine
end

