-- ==== Sys2Proof/Machine/State.lean ====
section
/-! DEFINITION. The state of the CORE as plain data (spec/10_state.md R20-R34), the reasons a step stops, and the state after reset. -/

namespace Sys2Proof.Machine

/-- `M` (R30): the bytes that differ from the reset contents (`unlistedByte`), by strictly rising address. -/
abbrev Memory := List Host.Cell

/-- `FB` (R29): 32 rows of 64 one-bit pixels; row r, column c is `fb[r][c]`. -/
abbrev FrameBuffer := Vector (Vector Bool 64) 32

/-- The three fatal error kinds (R140). -/
inductive FaultKind where
  /-- a byte address ≥ 4096 read by a fetch or a DRW, or written by the host (R141) -/
  | outOfBoundsAccess
  /-- CALL with the call stack full (R142) -/
  | stackOverflow
  /-- RET with the call stack empty (R143) -/
  | stackUnderflow
deriving DecidableEq, Repr

/-- The fault record (R146); its `code` is `FaultKind.code` of its kind. -/
structure FaultRecord where
  kind : FaultKind
  /-- address of the faulting instruction or of the fetch; none only for a fault of a host write (R141; log 8) -/
  pc : Option Word
  /-- the instruction word, or none for a fetch fault (R146) and for a host write -/
  word : Option Word
  /-- the failing byte address, OutOfBoundsAccess only (R146) -/
  addr : Option Nat
deriving DecidableEq, Repr

/-- The UnknownOpcode report (R144): the instruction's address and its word. -/
structure Report where
  pc : Word
  word : Word
deriving DecidableEq, Repr

/-- The state tuple of R20, then the model's own fields: what the last step returned beside the state (`report`, `stall`:
R86; log 6) and the parameters of the machine (`params`: R8; log 1). -/
structure State where
  /-- `M` -/
  mem : Memory
  /-- `FB` -/
  fb : FrameBuffer
  /-- `S`, newest entry first; SP is its length -/
  stack : List Word
  /-- `pc` -/
  pc : Word
  /-- `I` -/
  i : Word
  /-- `V[0..15]` -/
  v : Vector Byte 16
  /-- `DT`, the delay timer -/
  dt : Byte
  /-- `ST`, the sound timer -/
  st : Byte
  /-- `fault`: none, or the record of the fatal error -/
  fault : Option FaultRecord
  /-- `prev_pc`, the stall latch -/
  prevPc : Option Word
  /-- output: the UnknownOpcode report of the last step, if it made one (R84, R86) -/
  report : Option Report
  /-- output: the stall signal of the last step (R85, R86) -/
  stall : Bool
  /-- STACK_DEPTH and BNNN_VARIANT, fixed at construction (R8) -/
  params : Params
deriving DecidableEq, Repr

/-- Why a step stops with no next state. A fatal error of the CORE is NOT one of these: it is a next state whose `fault`
holds the record (R87, R146). -/
inductive Fault where
  /-- Raised by `step` when `fault` already holds a record: "A faulted CORE has no step" (R147, R80). Safe: the spec has no
  step there. -/
  | halted
deriving DecidableEq, Repr

/-- Why an instruction has no meaning. No arm of `exec` answers this; the constructor is the host's form. -/
inductive Refusal where
  /-- Raised by an arm of `exec` for an instruction that has no meaning yet (none has). Safe: nothing is claimed of it. -/
  | notModelled (mnemonic : String)
deriving DecidableEq, Repr

/-- The framebuffer with every pixel 0. -/
def blankFrame : FrameBuffer := Vector.replicate 32 (Vector.replicate 64 false)

/-- The state right after construction with the model's parameters (R34, R160, R161): memory at its reset contents, so
nothing listed; the call stack empty; pc = LOAD_OFFSET; V, I, DT, ST and FB zero (decision D5; log 5); no fault; no
previous pc. The two outputs hold "nothing returned yet" (log 6). -/
def State.reset : State where
  mem := []
  fb := blankFrame
  stack := []
  pc := loadOffset
  i := 0#16
  v := Vector.replicate 16 0#8
  dt := 0#8
  st := 0#8
  fault := none
  prevPc := none
  report := none
  stall := false
  params := defaultParams

end Sys2Proof.Machine
end

