-- ==== Sys2Proof/Machine/Ops.lean ====
section
/-! DEFINITION. The named operations over the state: memory, registers, call stack, framebuffer pixels, the fault record, and the parts of a step around the execute phase (spec/10_state.md, 20_memory.md, 40_cycle.md, 60_exceptions.md). -/

namespace Sys2Proof.Machine

/-! ### Memory (R30, R40-R48) -/

/-- The byte a memory lists at an address, if it lists one. -/
def Memory.lookup : Memory → Nat → Option Byte
  | [], _ => none
  | (k, c) :: m, a => if k = a then some c else Memory.lookup m a

/-- MemRead (R41): the byte at an address; none where R41 raises OutOfBoundsAccess, at every address ≥ 4096. -/
def Memory.readByte (m : Memory) (a : Nat) : Option Byte :=
  if a < memSize then some ((Memory.lookup m a).getD (unlistedByte a)) else none

/-- Put a byte into the list, keeping addresses rising and listing no byte equal to the reset contents. -/
def Memory.put : Memory → Nat → Byte → Memory
  | [], a, b => if b = unlistedByte a then [] else [(a, b)]
  | (k, c) :: m, a, b =>
    if a < k then (if b = unlistedByte a then (k, c) :: m else (a, b) :: (k, c) :: m)
    else if a = k then (if b = unlistedByte a then m else (a, b) :: m)
    else (k, c) :: Memory.put m a b

/-- Write one byte; nothing at an address outside `M`. -/
def Memory.writeByte (m : Memory) (a : Nat) (b : Byte) : Memory :=
  if a < memSize then Memory.put m a b else m

/-- Write bytes at rising addresses (the loop of R44's MemWrite). -/
def Memory.writeBytes : Memory → Nat → List Byte → Memory
  | m, _, [] => m
  | m, a, b :: bs => Memory.writeBytes (Memory.writeByte m a b) (a + 1) bs

/-- MemWrite (R44), host only: all the bytes, or the address of the failing access and nothing written (decision D23). -/
def Memory.memWrite (m : Memory) (a : Nat) (bytes : List Byte) : Except Nat Memory :=
  if 0 < bytes.length ∧ memSize ≤ a + bytes.length - 1 then .error (a + bytes.length - 1)
  else .ok (Memory.writeBytes m a bytes)

/-- The canonical form of a memory: addresses strictly rising and inside `M`, no byte equal to the reset contents. -/
def Memory.wf (m : Memory) : Bool :=
  decide (m.Pairwise fun p q => p.1 < q.1) && m.all fun p => decide (p.1 < memSize) && p.2 != unlistedByte p.1

/-- Read `n` bytes at rising addresses, or the first address at which a read fails (R126: "at the first r with I + r >= 4096"). -/
def Memory.readBytes (m : Memory) : Nat → Nat → Except Nat (List Byte)
  | _, 0 => .ok []
  | a, n + 1 =>
    match Memory.readByte m a with
    | none => .error a
    | some b =>
      match Memory.readBytes m (a + 1) n with
      | .ok bs => .ok (b :: bs)
      | .error e => .error e

/-! ### Registers (R21-R25) -/

/-- Read Vr (R21). -/
def State.getV (s : State) (r : Reg) : Byte := s.v[r.toNat]

/-- Write Vr (R21); no register is hard-wired, VF is an ordinary one (R22). -/
def State.setV (s : State) (r : Reg) (b : Byte) : State := { s with v := s.v.set r.toNat b }

/-- Write pc. -/
def State.setPc (s : State) (a : Word) : State := { s with pc := a }

/-- Write I (R25). -/
def State.setI (s : State) (a : Word) : State := { s with i := a }

/-- An operation that writes both Vx and VF: Vx first, VF last (R100), so that with x = F the flag stays. -/
def State.setResultAndFlag (s : State) (x : Reg) (result flag : Byte) : State := (s.setV x result).setV VF flag

/-- A taken skip moves pc past the next instruction, 2 bytes (R93-R97). -/
def State.skipIf (s : State) (taken : Bool) : State := if taken then s.setPc (s.pc + 2#16) else s

/-! ### Call stack (R26, R27) -/

/-- SP, the number of entries of `S` (R26). -/
def State.sp (s : State) : Nat := s.stack.length

/-- Push (R27): none when the stack is at capacity. -/
def State.push (s : State) (a : Word) : Option State :=
  if s.sp = s.params.stackDepth then none else some { s with stack := a :: s.stack }

/-- Pop (R27): the newest entry and the state without it; none when the stack is empty. -/
def State.pop (s : State) : Option (Word × State) :=
  match s.stack with
  | [] => none
  | a :: rest => some (a, { s with stack := rest })

/-- Peek (R27): the newest entry; no instruction uses it. -/
def State.peek (s : State) : Option Word := s.stack.head?

/-! ### Framebuffer (R29) -/

/-- The pixel at row `r`, column `c`; false outside the 32 × 64 grid. -/
def FrameBuffer.pixel (fb : FrameBuffer) (r c : Nat) : Bool :=
  if h : r < 32 ∧ c < 64 then (fb[r]'h.1)[c]'h.2 else false

/-- Write the pixel at row `r`, column `c`; nothing outside the grid. -/
def FrameBuffer.setPixel (fb : FrameBuffer) (r c : Nat) (p : Bool) : FrameBuffer :=
  if h : r < 32 ∧ c < 64 then fb.set r ((fb[r]'h.1).set c p h.2) h.1 else fb

/-! ### Fault entry (R140-R147) -/

/-- The numeric code of a fatal kind (R140, decision D16). -/
def FaultKind.code : FaultKind → Nat
  | .outOfBoundsAccess => 1
  | .stackOverflow => 2
  | .stackUnderflow => 3

/-- The code of a fault record (R146). -/
def FaultRecord.code (r : FaultRecord) : Nat := r.kind.code

/-- The code of the UnknownOpcode report (R140). -/
def unknownOpcodeCode : Nat := 4

/-- The code 0 of R140's row "(none)" (decision D16). -/
def noFaultCode : Nat := 0

/-- The code of what `fault` holds: that of its record, or the code of "(none)" (R140). -/
def State.faultCode (s : State) : Nat :=
  match s.fault with
  | none => noFaultCode
  | some r => r.code

/-- Fault entry (R146): nothing vectors, no mode changes; the record goes into `fault`. Every fault of the CORE goes through
here. There is no return from it (R147). -/
def State.recordFault (s : State) (r : FaultRecord) : State := { s with fault := some r }

/-- A fault raised by the execute phase of the instruction at `pc - 2` (R83: execute sees pc = a + 2): the one write the step
has made, the fetch advance, is undone (R87) and the record names the instruction's address and word (R141-R143, R146). -/
def State.raiseInExecute (s : State) (kind : FaultKind) (word : Word) (addr : Option Nat) : State :=
  (s.setPc (s.pc - 2#16)).recordFault ⟨kind, some (s.pc - 2#16), some word, addr⟩

/-- A fault raised by the fetch at `pc` (R81, R141): no word; the outputs of this step are empty. -/
def State.raiseInFetch (s : State) (addr : Nat) : State :=
  { s with report := none, stall := false }.recordFault ⟨.outOfBoundsAccess, some s.pc, none, some addr⟩

/-- The UnknownOpcode report of the instruction at `pc - 2` (R84, R144): nothing else changes. -/
def State.reportUnknown (s : State) (word : Word) : State := { s with report := some ⟨s.pc - 2#16, word⟩ }

/-! ### The parts of a step around the execute phase (R81, R85, R88) -/

/-- Fetch (R81, R42): two byte reads at pc and pc + 1, high byte first; or the first failing address. -/
def State.fetchWord (s : State) : Except Nat Word :=
  match Memory.readByte s.mem s.pc.toNat with
  | none => .error s.pc.toNat
  | some hi =>
    match Memory.readByte s.mem (s.pc.toNat + 1) with
    | none => .error (s.pc.toNat + 1)
    | some lo => .ok (wordOfBytes hi lo)

/-- After a fetch that succeeds: pc advanced by 2 "unconditionally, before execute" (R81), and the outputs of the last step
cleared for this one (R86). -/
def State.beginExecute (s : State) : State := { s with pc := s.pc + 2#16, report := none, stall := false }

/-- The end of a step that started at `a` and did not fault (R85): the stall signal, then the stall latch. -/
def State.latchStall (s : State) (a : Word) : State := { s with stall := s.prevPc == some a, prevPc := some a }

/-- The end of a step that started at `a`: a step that faulted keeps `prev_pc` (R87), any other latches it (R85). -/
def State.endStep (t : State) (a : Word) : State :=
  match t.fault with
  | some _ => t
  | none => t.latchStall a

/-- The outcome of a step that started at `a`, from the outcome of its execute phase (R88). -/
def finishStep (a : Word) : Host.Outcome State Fault Refusal → Host.Outcome State Fault Refusal
  | .next t => .next (t.endStep a)
  | .fault r => .fault r
  | .refused r => .refused r

end Sys2Proof.Machine
end

