-- ==== Sys2Proof/Machine/Alu.lean ====
section
/-! DEFINITION. Register loads and the arithmetic unit (spec/42_alu.md R100-R112). Each meaning is the execute phase (R83); none can fault. Operands are read before any write and VF is written last (R100). -/

namespace Sys2Proof.Machine

/-- LD Vx, nn (R101). -/
def execLdImm (x : Reg) (nn : Byte) (s : State) : Host.Outcome State Fault Refusal := .next (s.setV x nn)

/-- ADD Vx, nn (R102): wraps, no flag. -/
def execAddImm (x : Reg) (nn : Byte) (s : State) : Host.Outcome State Fault Refusal :=
  .next (s.setV x (addResult (s.getV x) nn))

/-- LD Vx, Vy (R103). -/
def execLdReg (x y : Reg) (s : State) : Host.Outcome State Fault Refusal := .next (s.setV x (s.getV y))

/-- OR Vx, Vy (R104): VF not written (decision D10). -/
def execOr (x y : Reg) (s : State) : Host.Outcome State Fault Refusal := .next (s.setV x (s.getV x ||| s.getV y))

/-- AND Vx, Vy (R105): VF not written (decision D10). -/
def execAnd (x y : Reg) (s : State) : Host.Outcome State Fault Refusal := .next (s.setV x (s.getV x &&& s.getV y))

/-- XOR Vx, Vy (R106): VF not written (decision D10). -/
def execXor (x y : Reg) (s : State) : Host.Outcome State Fault Refusal := .next (s.setV x (s.getV x ^^^ s.getV y))

/-- ADD Vx, Vy (R107): VF = carry. -/
def execAddReg (x y : Reg) (s : State) : Host.Outcome State Fault Refusal :=
  .next (s.setResultAndFlag x (addResult (s.getV x) (s.getV y)) (addCarry (s.getV x) (s.getV y)))

/-- SUB Vx, Vy (R108): Vx - Vy, VF = NOT borrow. -/
def execSub (x y : Reg) (s : State) : Host.Outcome State Fault Refusal :=
  .next (s.setResultAndFlag x (subResult (s.getV x) (s.getV y)) (subNoBorrow (s.getV x) (s.getV y)))

/-- SHR Vx, Vy (R109): the operand shifted is Vy; VF = bit 0 of Vy, written last (decision D9). -/
def execShr (x y : Reg) (s : State) : Host.Outcome State Fault Refusal :=
  .next (s.setResultAndFlag x (shrResult (s.getV y)) (shrFlag (s.getV y)))

/-- SUBN Vx, Vy (R110): Vy - Vx, VF = NOT borrow. -/
def execSubn (x y : Reg) (s : State) : Host.Outcome State Fault Refusal :=
  .next (s.setResultAndFlag x (subResult (s.getV y) (s.getV x)) (subNoBorrow (s.getV y) (s.getV x)))

/-- SHL Vx, Vy (R111): the operand shifted is Vy; VF = bit 7 of Vy, written last (decision D9). -/
def execShl (x y : Reg) (s : State) : Host.Outcome State Fault Refusal :=
  .next (s.setResultAndFlag x (shlResult (s.getV y)) (shlFlag (s.getV y)))

end Sys2Proof.Machine
end

