-- ==== Sys2Proof/Machine/Operands.lean ====
section
/-! DEFINITION. Operand forms: a 12-bit address as a 16-bit word, the index of Bnnn, and the origin and rows of a sprite (spec/30_encoding.md R62; 43_index.md R121; 44_display.md R126-R129). -/

namespace Sys2Proof.Machine

/-- `zext_16(nnn)` (R62, R91, R92, R120). -/
def zext16 (nnn : Addr12) : Word := nnn.setWidth 16

/-- The index Bnnn loads, by BNNN_VARIANT (R121, decision D8). -/
def bnnnIndex (variant : BnnnVariant) (nnn : Addr12) (v0 : Byte) : Word :=
  match variant with
  | .iPlusV0 => zext16 nnn + v0.setWidth 16
  | .iPlain => zext16 nnn

/-- The column a sprite starts at: Vx mod 64 (R128). -/
def spriteColumn (s : State) (x : Reg) : Nat := (s.getV x).toNat % fbWidth

/-- The row a sprite starts at: Vy mod 32 (R128). -/
def spriteRow (s : State) (y : Reg) : Nat := (s.getV y).toNat % fbHeight

/-- The `n` sprite rows at I, all read before any pixel changes (R126, R127, decision D13), or the lowest failing address. -/
def spriteBytes (s : State) (n : Nibble) : Except Nat (List Byte) := Memory.readBytes s.mem s.i.toNat n.toNat

/-- Pixel `b` of a sprite row is bit 7 - b: most significant bit first (R127). -/
def spriteBit (row : Byte) (b : Nat) : Bool := row.getLsbD (7 - b)

/-- The pixel-set rule (R130): XOR the sprite bit into one cell, and latch a collision where both were 1. -/
def drawPixel (r c : Nat) (bit : Bool) (acc : FrameBuffer × Bool) : FrameBuffer × Bool :=
  (acc.1.setPixel r c (acc.1.pixel r c ^^ bit), acc.2 || (acc.1.pixel r c && bit))

/-- The bits of one sprite row from bit `b` on, `k` of them left: stop at the right edge (R129 horizontal clip). -/
def drawBits (r ox : Nat) (row : Byte) : Nat → Nat → FrameBuffer × Bool → FrameBuffer × Bool
  | 0, _, acc => acc
  | k + 1, b, acc =>
    if ox + b ≥ fbWidth then acc else drawBits r ox row k (b + 1) (drawPixel r (ox + b) (spriteBit row b) acc)

/-- The rows of a sprite from screen row `r` on: stop at the bottom edge (R129 vertical clip). -/
def drawRows (ox : Nat) : Nat → List Byte → FrameBuffer × Bool → FrameBuffer × Bool
  | _, [], acc => acc
  | r, row :: rows, acc => if r ≥ fbHeight then acc else drawRows ox (r + 1) rows (drawBits r ox row 8 0 acc)

/-- The draw engine (R126): the framebuffer after the sprite, and the collision latch, which starts clear (R130). -/
def drawSprite (fb : FrameBuffer) (ox oy : Nat) (rows : List Byte) : FrameBuffer × Bool := drawRows ox oy rows (fb, false)

end Sys2Proof.Machine
end

