-- ==== Sys2Proof/Machine/ControlFlow.lean ====
section
/-! DEFINITION. Control flow: RET, JP, CALL and the skips (spec/41_control_flow.md R90-R97). Each meaning is the execute phase: it sees pc = a + 2 (R83). -/

namespace Sys2Proof.Machine

/-- RET (R90): pc takes the newest stack entry; StackUnderflow when there is none (R143). -/
def execRet (s : State) : Host.Outcome State Fault Refusal :=
  match s.pop with
  | none => .next (s.raiseInExecute .stackUnderflow (encode .ret) none)
  | some (t, s') => .next (s'.setPc t)

/-- JP nnn (R91). -/
def execJp (nnn : Addr12) (s : State) : Host.Outcome State Fault Refusal := .next (s.setPc (zext16 nnn))

/-- CALL nnn (R92): push pc, which is a + 2, then jump; StackOverflow when the stack is full (R142). -/
def execCall (nnn : Addr12) (s : State) : Host.Outcome State Fault Refusal :=
  match s.push s.pc with
  | none => .next (s.raiseInExecute .stackOverflow (encode (.call nnn)) none)
  | some s' => .next (s'.setPc (zext16 nnn))

/-- SE Vx, nn (R93). -/
def execSeImm (x : Reg) (nn : Byte) (s : State) : Host.Outcome State Fault Refusal := .next (s.skipIf (s.getV x == nn))

/-- SNE Vx, nn (R94). -/
def execSneImm (x : Reg) (nn : Byte) (s : State) : Host.Outcome State Fault Refusal := .next (s.skipIf (s.getV x != nn))

/-- SE Vx, Vy (R95). -/
def execSeReg (x y : Reg) (s : State) : Host.Outcome State Fault Refusal := .next (s.skipIf (s.getV x == s.getV y))

/-- SNE Vx, Vy (R96). -/
def execSneReg (x y : Reg) (s : State) : Host.Outcome State Fault Refusal := .next (s.skipIf (s.getV x != s.getV y))

end Sys2Proof.Machine
end

