-- ==== Sys2Proof/Machine/Display.lean ====
section
/-! DEFINITION. Clear and draw (spec/44_display.md R125-R132). Each meaning is the execute phase (R83). -/

namespace Sys2Proof.Machine

/-- CLS (R125): every pixel 0; VF unchanged. -/
def execCls (s : State) : Host.Outcome State Fault Refusal := .next { s with fb := blankFrame }

/-- DRW Vx, Vy, n (R126): OutOfBoundsAccess at the lowest failing row address, even of a row that clipping would drop
(decision D13); else the sprite XORed in, then VF = the collision latch (R131). With n = 0 nothing is read or drawn and
VF = 0 (R132, decision D14). -/
def execDrw (x y : Reg) (n : Nibble) (s : State) : Host.Outcome State Fault Refusal :=
  match spriteBytes s n with
  | .error addr => .next (s.raiseInExecute .outOfBoundsAccess (encode (.drw x y n)) (some addr))
  | .ok rows =>
    let drawn := drawSprite s.fb (spriteColumn s x) (spriteRow s y) rows
    .next ({ s with fb := drawn.1 }.setV VF (flagByte drawn.2))

end Sys2Proof.Machine
end

