-- ==== Sys2Proof/Machine/Index.lean ====
section
/-! DEFINITION. Index register loads (spec/43_index.md R120, R121). Each meaning is the execute phase (R83); neither can fault. -/

namespace Sys2Proof.Machine

/-- LD I, nnn (R120). -/
def execLdI (nnn : Addr12) (s : State) : Host.Outcome State Fault Refusal := .next (s.setI (zext16 nnn))

/-- LD I, nnn+V0 (R121): by BNNN_VARIANT; pc is not written (decision D8). -/
def execLdIV0 (nnn : Addr12) (s : State) : Host.Outcome State Fault Refusal :=
  .next (s.setI (bnnnIndex s.params.bnnnVariant nnn (s.getV 0x0#4)))

end Sys2Proof.Machine
end

