-- ==== Sys2Proof/Machine/Unhandled.lean ====
section
/-! DEFINITION. The five UNHANDLED regions (spec/40_cycle.md R84; 30_encoding.md R65; 60_exceptions.md R144): each reports UnknownOpcode with its own word and changes nothing else. -/

namespace Sys2Proof.Machine

/-- 0nnn other than 00E0 and 00EE: no-op on state, reported (R84, decision D12, conflict C6). -/
def execUnhandled0 (low : BitVec 12) (s : State) : Host.Outcome State Fault Refusal :=
  .next (s.reportUnknown (encode (.unhandled0 low)))

/-- 8xyN with N in 8..D or F (R84). -/
def execUnhandled8 (low : BitVec 12) (s : State) : Host.Outcome State Fault Refusal :=
  .next (s.reportUnknown (encode (.unhandled8 low)))

/-- Class C (R84). -/
def execUnhandledC (low : BitVec 12) (s : State) : Host.Outcome State Fault Refusal :=
  .next (s.reportUnknown (encode (.unhandledC low)))

/-- Class E (R84). -/
def execUnhandledE (low : BitVec 12) (s : State) : Host.Outcome State Fault Refusal :=
  .next (s.reportUnknown (encode (.unhandledE low)))

/-- Class F (R84). -/
def execUnhandledF (low : BitVec 12) (s : State) : Host.Outcome State Fault Refusal :=
  .next (s.reportUnknown (encode (.unhandledF low)))

end Sys2Proof.Machine
end

