-- ==== Sys2Proof/Machine/Step.lean ====
section
/-! DEFINITION. One step of the CORE (spec/40_cycle.md R80-R88), and placing one word where the next step fetches. -/

namespace Sys2Proof.Machine

/-- `step()` (R88). With a fault recorded there is no step (R80, R147). A fetch that fails records its fault (R81). Otherwise
the fetched word's instruction executes with pc = a + 2, and a step that does not fault latches its starting pc (R85). -/
def step (s : State) : Host.Outcome State Fault Refusal :=
  match s.fault with
  | some _ => .fault .halted
  | none =>
    match s.fetchWord with
    | .error addr => .next (s.raiseInFetch addr)
    | .ok w => finishStep s.pc (exec (decodeWord w) s.beginExecute)

/-- The state with one instruction word stored big-endian at pc, where the next step fetches it (R42, R81). It stands for
the host's load of a program (R163; log 10). -/
def State.withFetchWord (s : State) (nbits w : Nat) : State :=
  { s with mem := Memory.writeBytes s.mem s.pc.toNat [highByte (tableWord nbits w), lowByte (tableWord nbits w)] }

end Sys2Proof.Machine
end

