-- ==== Sys2Proof/Machine/Construct.lean ====
section
/-! DEFINITION. Construction with the parameters of the machine given (spec/70_reset_and_hazards.md R160-R162; 00_scope.md R8). `State.reset` is the case of the default parameters and the default FONT. -/

namespace Sys2Proof.Machine

/-- The default FONT as the 80 bytes the parameter takes (R31, decision D3). -/
def defaultFont : Vector Byte 80 := ⟨fontTable.toArray, by decide⟩

/-- `construct()` (R160) with STACK_DEPTH, BNNN_VARIANT and FONT given: memory zero but for FONT at FONT_BASE, the stack
empty, pc = LOAD_OFFSET, everything else as R34 says. -/
def State.construct (params : Params) (font : Vector Byte 80) : State where
  mem := Memory.writeBytes [] fontBase font.toList
  fb := blankFrame
  stack := []
  pc := loadOffset
  i := 0#16
  v := Vector.replicate 16 0#8
  dt := 0#8
  st := 0#8
  fault := none
  prevPc := none
  report := none
  stall := false
  params := params

end Sys2Proof.Machine
end

