-- ==== Sys2Proof/Machine/HostPort.lean ====
section
/-! DEFINITION. The host's operations on the CORE (spec/60_exceptions.md R156; 70_reset_and_hazards.md R162, R163; 44_display.md R133). They happen only between steps; `step` never runs one. -/

namespace Sys2Proof.Machine

/-- What a step returns to the host (R86). -/
inductive StepResult where
  /-- the instruction executed -/
  | ok (stall : Bool)
  /-- an UNHANDLED word: not fatal -/
  | reported (report : Report) (stall : Bool)
  /-- a fatal error -/
  | fault (record : FaultRecord)
deriving DecidableEq, Repr

/-- The result of the step that led to this state (R86). -/
def State.result (t : State) : StepResult :=
  match t.fault, t.report with
  | some r, _ => .fault r
  | none, some r => .reported r t.stall
  | none, none => .ok t.stall

/-- The host's call of `step()` (R156): the state after it and what it returns; none where no step exists (R80). -/
def stepCall (s : State) : Option (State × StepResult) :=
  match step s with
  | .next t => some (t, t.result)
  | .fault _ => none
  | .refused _ => none

/-- What `load_program` returns to the host (R156). -/
inductive LoadResult where
  /-- the image is stored -/
  | ok
  /-- it does not fit: the address MemWrite reports (R163; log 9) -/
  | outOfBoundsAccess (addr : Nat)
deriving DecidableEq, Repr

/-- The host's call of `load_program(bytes, offset)` (R163): MemWrite, then pc <- offset. An image that does not fit writes
nothing, leaves pc and sets `fault` (decision D23; the record's other fields: log 8, log 9, log 18). With the state after it, the
answer of R156, which does not depend on what `fault` held before. -/
def loadCall (s : State) (bytes : List Byte) (offset : Word) : State × LoadResult :=
  match Memory.memWrite s.mem offset.toNat bytes with
  | .error addr => (s.recordFault ⟨.outOfBoundsAccess, none, none, some addr⟩, .outOfBoundsAccess addr)
  | .ok m => ({ s with mem := m, pc := offset }, .ok)

/-- The state after `load_program(bytes, offset)`. -/
def State.loadProgram (s : State) (bytes : List Byte) (offset : Word) : State := (loadCall s bytes offset).1

/-- The boot order of R162: construct, then load one image at LOAD_OFFSET. -/
def State.boot (params : Params) (font : Vector Byte 80) (image : List Byte) : State :=
  (State.construct params font).loadProgram image loadOffset

/-- `read_fb()` (R133, R156): the 64×32 grid. -/
def State.readFb (s : State) : FrameBuffer := s.fb

/-- `read_timers()` (R151, R156): DT and ST. -/
def State.readTimers (s : State) : Byte × Byte := (s.dt, s.st)

/-- `write_timers(dt, st)` (R151, R156). -/
def State.writeTimers (s : State) (dt st : Byte) : State := { s with dt := dt, st := st }

/-- `read_fault()` (R156): the fault record or none. -/
def State.readFault (s : State) : Option FaultRecord := s.fault

end Sys2Proof.Machine
end

