-- ==== Sys2Proof/Safety.lean ====
section
/-! DEFINITION. The words claims are stated in: the parts of the state and what "changes only" means, the invariant of a state between steps, and safe runs. -/

namespace Sys2Proof.Machine

/-- One part of the state a claim can speak of: every register and every byte of memory is a part of its own. -/
inductive Part where
  | mem (addr : Nat)
  | fb
  | stack
  | pc
  | i
  | v (r : Reg)
  | dt
  | st
  | fault
  | prevPc
  | report
  | stall
  | params
deriving DecidableEq, Repr

/-- The part `p` holds the same in both states; memory through the read of one byte. -/
def Part.same (p : Part) (s t : State) : Prop :=
  match p with
  | .mem a => Memory.readByte t.mem a = Memory.readByte s.mem a
  | .fb => t.fb = s.fb
  | .stack => t.stack = s.stack
  | .pc => t.pc = s.pc
  | .i => t.i = s.i
  | .v r => t.getV r = s.getV r
  | .dt => t.dt = s.dt
  | .st => t.st = s.st
  | .fault => t.fault = s.fault
  | .prevPc => t.prevPc = s.prevPc
  | .report => t.report = s.report
  | .stall => t.stall = s.stall
  | .params => t.params = s.params

/-- From `s` to `t` nothing changes but the listed parts: every other register, every byte of memory, and every other
component holds the same. -/
def ChangesOnly (ps : List Part) (s t : State) : Prop := ∀ p, p ∉ ps → p.same s t

/-- The sprite bit that falls on the screen cell (r, c) when `n` rows at I are drawn with origin column `ox` and row `oy`: bit
7 - (c - ox) of the byte at I + (r - oy) (R127); 0 outside the sprite. It says in one formula what R126's loops visit. -/
def State.spriteAt (s : State) (ox oy n r c : Nat) : Bool :=
  decide (oy ≤ r ∧ r < oy + n ∧ ox ≤ c ∧ c < ox + 8) &&
    ((Memory.readByte s.mem (s.i.toNat + (r - oy))).getD 0#8).getLsbD (7 - (c - ox))

/-- A fault record as R146 describes one: an address exactly for OutOfBoundsAccess, and a failing one (R141). -/
def FaultRecord.wf (r : FaultRecord) : Prop :=
  match r.kind, r.addr with
  | .outOfBoundsAccess, some a => 4096 ≤ a
  | .outOfBoundsAccess, none => False
  | .stackOverflow, a => a = none
  | .stackUnderflow, a => a = none

/-- The invariant of the state between steps. Memory is in canonical form; "size never exceeds its fixed capacity" (R26), and
the capacity is at least 1 (R8); pc is at most 4098 (R24); a return address is a pc after a fetch, at most 4096 (R90, R97); I is
at most 0x10FE (R25); a fault record is one of R146. -/
structure State.Inv (s : State) : Prop where
  mem_wf : Memory.wf s.mem = true
  depth_pos : 1 ≤ s.params.stackDepth
  stack_bounded : s.sp ≤ s.params.stackDepth
  pc_bounded : s.pc.toNat ≤ 4098
  stack_entries : ∀ a ∈ s.stack, a.toNat ≤ 4096
  i_bounded : s.i.toNat ≤ 0x10FE
  fault_wf : ∀ r, s.fault = some r → r.wf

/-- `k` steps all happen and none of them faults: what a safe run is (R157: a run that a fault ends is "final and bad"). -/
def RunsSafely (k : Nat) (s : State) : Prop := ∃ t, Sys2Proof.core.run k s = .next t ∧ t.fault = none

end Sys2Proof.Machine
end

