-- ==== Sys2Proof/Certificates/Slice0/Obligations.lean ====
section
/-! DEFINITION. The statements for the provers. Each docstring names the rule of spec/ it formalises; where a clause rests on a decision of spec/92_eei_decisions.md or on a choice of the model, the docstring says so and the statement's basis is 'derived'. Execute-phase statements see pc = a + 2, as R12 and R83 say. -/

open Sys2Proof Sys2Proof.Machine

/-! ### Encoding -/

/-- R60, R63, R67: the bytes of a well-formed instruction, followed by anything, decode to that instruction and leave what
follows. Every operand at every value of its field; UNHANDLED words included. -/
def Obligations.DecodeOfEncodeIsTheInstruction : Prop :=
  ∀ (i : Instr) (rest : List Byte), i.wellFormed = true → decode (encodeBytes i ++ rest) = .ok (i, rest)

/-- R63 ("The decoder is total"), R66 (decision D11), R67: every word decodes to a well-formed instruction, and encoding that
instruction gives the word back, except that classes 5 and 9, which do not examine the low nibble, give it back as 0. -/
def Obligations.EncodeOfDecodeKeepsEveryExaminedBit : Prop :=
  ∀ w : Word, (decodeWord w).wellFormed = true ∧
    (encode (decodeWord w)).toNat =
      if w.toNat / 4096 = 5 ∨ w.toNat / 4096 = 9 then w.toNat - w.toNat % 16 else w.toNat

/-- R63, R64, R65, and R66 (decision D11) for the low nibble of classes 5 and 9: the opcode map, class by class. -/
def Obligations.DecodeFollowsTheOpcodeMap : Prop :=
  ∀ (x y n : BitVec 4) (nn : Byte) (low : BitVec 12),
    decodeWord (0x0#4 ++ low) =
      (if low = 0x0E0#12 then .cls else if low = 0x0EE#12 then .ret else .unhandled0 low) ∧
    decodeWord (0x1#4 ++ low) = .jp low ∧
    decodeWord (0x2#4 ++ low) = .call low ∧
    decodeWord (0x3#4 ++ x ++ nn) = .seImm x nn ∧
    decodeWord (0x4#4 ++ x ++ nn) = .sneImm x nn ∧
    decodeWord (0x5#4 ++ x ++ y ++ n) = .seReg x y ∧
    decodeWord (0x6#4 ++ x ++ nn) = .ldImm x nn ∧
    decodeWord (0x7#4 ++ x ++ nn) = .addImm x nn ∧
    decodeWord (0x8#4 ++ x ++ y ++ 0x0#4) = .ldReg x y ∧
    decodeWord (0x8#4 ++ x ++ y ++ 0x1#4) = .or x y ∧
    decodeWord (0x8#4 ++ x ++ y ++ 0x2#4) = .and x y ∧
    decodeWord (0x8#4 ++ x ++ y ++ 0x3#4) = .xor x y ∧
    decodeWord (0x8#4 ++ x ++ y ++ 0x4#4) = .addReg x y ∧
    decodeWord (0x8#4 ++ x ++ y ++ 0x5#4) = .sub x y ∧
    decodeWord (0x8#4 ++ x ++ y ++ 0x6#4) = .shr x y ∧
    decodeWord (0x8#4 ++ x ++ y ++ 0x7#4) = .subn x y ∧
    decodeWord (0x8#4 ++ x ++ y ++ 0xE#4) = .shl x y ∧
    ((8 ≤ n.toNat ∧ n.toNat ≤ 13) ∨ n.toNat = 15 →
      decodeWord (0x8#4 ++ x ++ y ++ n) = .unhandled8 (x ++ y ++ n)) ∧
    decodeWord (0x9#4 ++ x ++ y ++ n) = .sneReg x y ∧
    decodeWord (0xA#4 ++ low) = .ldI low ∧
    decodeWord (0xB#4 ++ low) = .ldIV0 low ∧
    decodeWord (0xC#4 ++ low) = .unhandledC low ∧
    decodeWord (0xD#4 ++ x ++ y ++ n) = .drw x y n ∧
    decodeWord (0xE#4 ++ low) = .unhandledE low ∧
    decodeWord (0xF#4 ++ low) = .unhandledF low

/-- Words of spec/95_test_vectors.md (section 2, and D125 and 3F of section 3), written out from R63's patterns, decode to the
instructions they stand for; a string of one byte is refused by name. That 912F, whose low nibble is not 0, is SNE is the spec's
decision D11 (log 13). -/
def Obligations.SampleWordsDecode : Prop :=
  decodeWord 0x00E0#16 = .cls ∧ decodeWord 0x2300#16 = .call 0x300#12 ∧ decodeWord 0x3342#16 = .seImm 0x3#4 0x42#8 ∧
  decodeWord 0x8126#16 = .shr 0x1#4 0x2#4 ∧ decodeWord 0x8128#16 = .unhandled8 0x128#12 ∧
  decodeWord 0x912F#16 = .sneReg 0x1#4 0x2#4 ∧ decodeWord 0xB050#16 = .ldIV0 0x050#12 ∧
  decodeWord 0xD125#16 = .drw 0x1#4 0x2#4 0x5#4 ∧ decodeWord 0xF00A#16 = .unhandledF 0x00A#12 ∧
  decode [0xD1#8, 0x25#8, 0x3F#8] = .ok (.drw 0x1#4 0x2#4 0x5#4, [0x3F#8]) ∧ decode [0xD1#8] = .error .truncated

/-! ### Loads and the arithmetic unit -/

/-- R101, LD Vx, nn: the word 6xnn; Vx <- nn (an ordinary write for x = F too); nothing else changes; no fault. -/
def Obligations.LdImmWritesTheImmediate : Prop :=
  ∀ (x : Reg) (nn : Byte) (s : State), decodeWord (0x6#4 ++ x ++ nn) = .ldImm x nn ∧
    ∃ t, exec (.ldImm x nn) s = .next t ∧ t.getV x = nn ∧ ChangesOnly [.v x] s t

/-- R102, ADD Vx, nn: the word 7xnn; the sum mod 256; no carry is recorded, so VF changes only as Vx with x = F. -/
def Obligations.AddImmWrapsAndRecordsNoCarry : Prop :=
  ∀ (x : Reg) (nn : Byte) (s : State), decodeWord (0x7#4 ++ x ++ nn) = .addImm x nn ∧
    ∃ t, exec (.addImm x nn) s = .next t ∧ (t.getV x).toNat = ((s.getV x).toNat + nn.toNat) % 256 ∧ ChangesOnly [.v x] s t

/-- R103, LD Vx, Vy: the word 8xy0; a copy; nothing else changes. -/
def Obligations.LdRegCopiesTheRegister : Prop :=
  ∀ (x y : Reg) (s : State), decodeWord (0x8#4 ++ x ++ y ++ 0x0#4) = .ldReg x y ∧
    ∃ t, exec (.ldReg x y) s = .next t ∧ t.getV x = s.getV y ∧ ChangesOnly [.v x] s t

/-- R104, R105, R106, OR, AND, XOR: bit by bit. That VF is not written (unless x = F) is the spec's decision D10. -/
def Obligations.LogicOpsCombineBitsAndLeaveTheFlag : Prop :=
  ∀ (x y : Reg) (s : State),
    (∃ t, exec (.or x y) s = .next t ∧ ChangesOnly [.v x] s t ∧
      ∀ b, b < 8 → (t.getV x).getLsbD b = ((s.getV x).getLsbD b || (s.getV y).getLsbD b)) ∧
    (∃ t, exec (.and x y) s = .next t ∧ ChangesOnly [.v x] s t ∧
      ∀ b, b < 8 → (t.getV x).getLsbD b = ((s.getV x).getLsbD b && (s.getV y).getLsbD b)) ∧
    (∃ t, exec (.xor x y) s = .next t ∧ ChangesOnly [.v x] s t ∧
      ∀ b, b < 8 → (t.getV x).getLsbD b = ((s.getV x).getLsbD b ^^ (s.getV y).getLsbD b))

/-- R107, ADD Vx, Vy: the word 8xy4; the sum mod 256 in Vx and the carry in VF, from the old values whatever x and y are; with
x = F the flag stays. -/
def Obligations.AddRegWritesSumAndCarry : Prop :=
  ∀ (x y : Reg) (s : State), decodeWord (0x8#4 ++ x ++ y ++ 0x4#4) = .addReg x y ∧
    ∃ t, exec (.addReg x y) s = .next t ∧
      (x ≠ VF → (t.getV x).toNat = ((s.getV x).toNat + (s.getV y).toNat) % 256) ∧
      t.getV VF = (if (s.getV x).toNat + (s.getV y).toNat > 255 then 1#8 else 0#8) ∧ ChangesOnly [.v x, .v VF] s t

/-- R108, SUB Vx, Vy: the word 8xy5; Vx - Vy mod 256 and NOT borrow, from the old values. -/
def Obligations.SubWritesDifferenceAndNoBorrow : Prop :=
  ∀ (x y : Reg) (s : State), decodeWord (0x8#4 ++ x ++ y ++ 0x5#4) = .sub x y ∧
    ∃ t, exec (.sub x y) s = .next t ∧
      (x ≠ VF → (t.getV x).toNat = ((s.getV x).toNat + 256 - (s.getV y).toNat) % 256) ∧
      t.getV VF = (if (s.getV x).toNat ≥ (s.getV y).toNat then 1#8 else 0#8) ∧ ChangesOnly [.v x, .v VF] s t

/-- R110, SUBN Vx, Vy: the word 8xy7; Vy - Vx mod 256 and NOT borrow, from the old values. -/
def Obligations.SubnWritesReverseDifferenceAndNoBorrow : Prop :=
  ∀ (x y : Reg) (s : State), decodeWord (0x8#4 ++ x ++ y ++ 0x7#4) = .subn x y ∧
    ∃ t, exec (.subn x y) s = .next t ∧
      (x ≠ VF → (t.getV x).toNat = ((s.getV y).toNat + 256 - (s.getV x).toNat) % 256) ∧
      t.getV VF = (if (s.getV y).toNat ≥ (s.getV x).toNat then 1#8 else 0#8) ∧ ChangesOnly [.v x, .v VF] s t

/-- R109, SHR Vx, Vy: Vy shifted right by one into Vx, bit 7 of the result 0, and bit 0 of Vy in VF. That the flag stays with
x = F is the spec's decision D9. -/
def Obligations.ShrShiftsVyRightIntoVx : Prop :=
  ∀ (x y : Reg) (s : State), ∃ t, exec (.shr x y) s = .next t ∧ ChangesOnly [.v x, .v VF] s t ∧
    (x ≠ VF → (t.getV x).getLsbD 7 = false ∧ ∀ b, b < 7 → (t.getV x).getLsbD b = (s.getV y).getLsbD (b + 1)) ∧
    t.getV VF = (if (s.getV y).toNat % 2 = 1 then 1#8 else 0#8)

/-- R111, SHL Vx, Vy: Vy shifted left by one into Vx, bit 0 of the result 0, and bit 7 of Vy in VF. That the flag stays with
x = F is the spec's decision D9. -/
def Obligations.ShlShiftsVyLeftIntoVx : Prop :=
  ∀ (x y : Reg) (s : State), ∃ t, exec (.shl x y) s = .next t ∧ ChangesOnly [.v x, .v VF] s t ∧
    (x ≠ VF → (t.getV x).getLsbD 0 = false ∧ ∀ b, b < 7 → (t.getV x).getLsbD (b + 1) = (s.getV y).getLsbD b) ∧
    t.getV VF = (if (s.getV y).toNat ≥ 128 then 1#8 else 0#8)

/-! ### Index register -/

/-- R120, LD I, nnn: the word Annn; I <- nnn zero-extended; no check, no fault, nothing else changes. -/
def Obligations.LdILoadsTheAddress : Prop :=
  ∀ (nnn : Addr12) (s : State), decodeWord (0xA#4 ++ nnn) = .ldI nnn ∧
    ∃ t, exec (.ldI nnn) s = .next t ∧ t.i.toNat = nnn.toNat ∧ ChangesOnly [.i] s t

/-- R121, LD I, nnn+V0, for both values of BNNN_VARIANT (decision D8): nnn + V0 with no wrap in 16 bits, or nnn; pc is not
written. -/
def Obligations.LdIV0LoadsByVariant : Prop :=
  ∀ (nnn : Addr12) (s : State), ∃ t, exec (.ldIV0 nnn) s = .next t ∧ ChangesOnly [.i] s t ∧
    (s.params.bnnnVariant = .iPlusV0 → t.i.toNat = nnn.toNat + (s.getV 0x0#4).toNat) ∧
    (s.params.bnnnVariant = .iPlain → t.i.toNat = nnn.toNat)

/-! ### Control flow -/

/-- R91, JP nnn: the word 1nnn; pc <- nnn; nothing else changes, no fault in this step. -/
def Obligations.JpSetsPc : Prop :=
  ∀ (nnn : Addr12) (s : State), decodeWord (0x1#4 ++ nnn) = .jp nnn ∧
    ∃ t, exec (.jp nnn) s = .next t ∧ t.pc.toNat = nnn.toNat ∧ ChangesOnly [.pc] s t

/-- R92 and R142, CALL nnn: the word 2nnn. Below capacity it pushes pc, which is a + 2, and jumps. At capacity it raises
StackOverflow: the record names the instruction's address and word, pc goes back to the instruction, nothing else changes (the
spec's decision D15; log 7). -/
def Obligations.CallPushesAndJumpsOrOverflows : Prop :=
  ∀ (nnn : Addr12) (s : State), decodeWord (0x2#4 ++ nnn) = .call nnn ∧
    (s.sp ≠ s.params.stackDepth → ∃ t, exec (.call nnn) s = .next t ∧
      t.stack = s.pc :: s.stack ∧ t.pc.toNat = nnn.toNat ∧ ChangesOnly [.stack, .pc] s t) ∧
    (s.sp = s.params.stackDepth → ∃ t, exec (.call nnn) s = .next t ∧
      t.fault = some ⟨.stackOverflow, some (s.pc - 2#16), some (0x2#4 ++ nnn), none⟩ ∧ t.pc = s.pc - 2#16 ∧
      ChangesOnly [.fault, .pc] s t)

/-- R90 and R143, RET: the word 00EE. It pops the newest entry into pc and does not add 2. On an empty stack it raises
StackUnderflow: the record names the instruction's address and word, pc goes back to the instruction, nothing else changes (the
spec's decision D15; log 7). -/
def Obligations.RetPopsIntoPcOrUnderflows : Prop :=
  decodeWord 0x00EE#16 = .ret ∧ ∀ s : State,
    (∀ a rest, s.stack = a :: rest → ∃ t, exec .ret s = .next t ∧
      t.pc = a ∧ t.stack = rest ∧ ChangesOnly [.stack, .pc] s t) ∧
    (s.stack = [] → ∃ t, exec .ret s = .next t ∧
      t.fault = some ⟨.stackUnderflow, some (s.pc - 2#16), some 0x00EE#16, none⟩ ∧ t.pc = s.pc - 2#16 ∧
      ChangesOnly [.fault, .pc] s t)

/-- R93, SE Vx, nn: the word 3xnn; pc + 2 if Vx = nn, else pc; nothing else changes. -/
def Obligations.SeImmSkipsIfEqual : Prop :=
  ∀ (x : Reg) (nn : Byte) (s : State), decodeWord (0x3#4 ++ x ++ nn) = .seImm x nn ∧
    ∃ t, exec (.seImm x nn) s = .next t ∧ t.pc = (if s.getV x = nn then s.pc + 2#16 else s.pc) ∧ ChangesOnly [.pc] s t

/-- R94, SNE Vx, nn: the word 4xnn; pc + 2 if Vx ≠ nn, else pc; nothing else changes. -/
def Obligations.SneImmSkipsIfNotEqual : Prop :=
  ∀ (x : Reg) (nn : Byte) (s : State), decodeWord (0x4#4 ++ x ++ nn) = .sneImm x nn ∧
    ∃ t, exec (.sneImm x nn) s = .next t ∧ t.pc = (if s.getV x = nn then s.pc else s.pc + 2#16) ∧ ChangesOnly [.pc] s t

/-- R95 and R96, SE Vx, Vy and SNE Vx, Vy: pc + 2 if the registers are equal, or differ; x = y always skips, or never. The word
for any low nibble n is the spec's decision D11. -/
def Obligations.RegisterSkipsCompareRegisters : Prop :=
  ∀ (x y n : BitVec 4) (s : State),
    (decodeWord (0x5#4 ++ x ++ y ++ n) = .seReg x y ∧ ∃ t, exec (.seReg x y) s = .next t ∧
      t.pc = (if s.getV x = s.getV y then s.pc + 2#16 else s.pc) ∧ ChangesOnly [.pc] s t) ∧
    (decodeWord (0x9#4 ++ x ++ y ++ n) = .sneReg x y ∧ ∃ t, exec (.sneReg x y) s = .next t ∧
      t.pc = (if s.getV x = s.getV y then s.pc else s.pc + 2#16) ∧ ChangesOnly [.pc] s t)

/-! ### Display -/

/-- R125, CLS: the word 00E0; every pixel 0; VF and everything else unchanged. -/
def Obligations.ClsClearsEveryPixel : Prop :=
  decodeWord 0x00E0#16 = .cls ∧ ∀ s : State, ∃ t, exec .cls s = .next t ∧
    (∀ r c, r < 32 → c < 64 → t.fb.pixel r c = false) ∧ ChangesOnly [.fb] s t

/-- R126-R131, DRW Vx, Vy, n, where every row lies inside `M` or n = 0: the loops of R126, with their early exits, leave in
every cell the old pixel XOR the sprite bit that falls on it (no wrap, R129), and in VF 1 exactly if some 1 bit of the sprite
falls on a 1 pixel of the grid (R130), the origin taken from the old registers for x = F or y = F too (R131); I, memory and
everything else unchanged. When the rows are read, and which draws fault, is the spec's decision D13; n = 0 is D14. -/
def Obligations.DrwXorsTheSpriteInsideTheGrid : Prop :=
  ∀ (x y : Reg) (n : Nibble) (s : State), n = 0#4 ∨ s.i.toNat + n.toNat ≤ 4096 →
    ∃ t, exec (.drw x y n) s = .next t ∧
      (∀ r c, r < 32 → c < 64 → t.fb.pixel r c = (s.fb.pixel r c ^^
        s.spriteAt ((s.getV x).toNat % 64) ((s.getV y).toNat % 32) n.toNat r c)) ∧
      (t.getV VF = 0#8 ∨ t.getV VF = 1#8) ∧
      (t.getV VF = 1#8 ↔ ∃ r c, r < 32 ∧ c < 64 ∧ s.fb.pixel r c = true ∧
        s.spriteAt ((s.getV x).toNat % 64) ((s.getV y).toNat % 32) n.toNat r c = true) ∧
      ChangesOnly [.fb, .v VF] s t

/-- R126 and R141 for a DRW with some row outside `M`, even a row that clipping would drop (the spec's decision D13): the record
names the lowest failing address, the instruction's address and its word; pc goes back to the instruction; nothing else
changes (decision D15). -/
def Obligations.DrwOutsideMemoryRecordsTheLowestAddress : Prop :=
  ∀ (x y : Reg) (n : Nibble) (s : State), n ≠ 0#4 → 4096 < s.i.toNat + n.toNat →
    ∃ t, exec (.drw x y n) s = .next t ∧
      t.fault = some ⟨.outOfBoundsAccess, some (s.pc - 2#16), some (0xD#4 ++ x ++ y ++ n), some (max s.i.toNat 4096)⟩ ∧
      t.pc = s.pc - 2#16 ∧ ChangesOnly [.fault, .pc] s t

/-- R132 (the spec's decision D14): a draw of zero rows reads nothing, so it completes whatever I holds; it changes no pixel
and writes VF = 0. -/
def Obligations.DrwOfZeroRowsOnlyClearsTheFlag : Prop :=
  ∀ (x y : Reg) (s : State), ∃ t, exec (.drw x y 0#4) s = .next t ∧ t.getV VF = 0#8 ∧ ChangesOnly [.v VF] s t

/-- spec/95_test_vectors.md W4, from R126-R131: drawing the same sprite twice at the same origin restores the framebuffer, and
the second draw sets VF exactly if some 1 bit of the sprite falls inside the clip window on a cell that was 0 before the first
draw (from a clear buffer: exactly if the sprite has a 1 bit inside the window, as W4's limit says). The premise says that the first draw's write
to VF left the origin registers' reduced values as they were, which holds for every x ≠ F and y ≠ F. That a draw of n = 0 rows
clears VF is the spec's decision D14, when the rows are read D13 (log 14). -/
def Obligations.DrawingTwiceRestoresTheFramebuffer : Prop :=
  ∀ (x y : Reg) (n : Nibble) (s t : State), n = 0#4 ∨ s.i.toNat + n.toNat ≤ 4096 → exec (.drw x y n) s = .next t →
    (t.getV x).toNat % 64 = (s.getV x).toNat % 64 → (t.getV y).toNat % 32 = (s.getV y).toNat % 32 →
    ∃ u, exec (.drw x y n) t = .next u ∧ u.fb = s.fb ∧
      (u.getV VF = 1#8 ↔ ∃ r c, r < 32 ∧ c < 64 ∧ s.fb.pixel r c = false ∧
        s.spriteAt ((s.getV x).toNat % 64) ((s.getV y).toNat % 32) n.toNat r c = true)

/-! ### UNHANDLED words -/

/-- R84 for the execute phase of each of the five UNHANDLED rows: the report names the instruction's address (pc - 2 here) and
its word; nothing else changes. That a class-0 word is reported is the spec's decision D12. -/
def Obligations.UnhandledRowsReportAndChangeNothingElse : Prop :=
  ∀ (low : BitVec 12) (s : State),
    (∃ t, exec (.unhandled0 low) s = .next t ∧ t.report = some ⟨s.pc - 2#16, 0x0#4 ++ low⟩ ∧ ChangesOnly [.report] s t) ∧
    (∃ t, exec (.unhandled8 low) s = .next t ∧ t.report = some ⟨s.pc - 2#16, 0x8#4 ++ low⟩ ∧ ChangesOnly [.report] s t) ∧
    (∃ t, exec (.unhandledC low) s = .next t ∧ t.report = some ⟨s.pc - 2#16, 0xC#4 ++ low⟩ ∧ ChangesOnly [.report] s t) ∧
    (∃ t, exec (.unhandledE low) s = .next t ∧ t.report = some ⟨s.pc - 2#16, 0xE#4 ++ low⟩ ∧ ChangesOnly [.report] s t) ∧
    (∃ t, exec (.unhandledF low) s = .next t ∧ t.report = some ⟨s.pc - 2#16, 0xF#4 ++ low⟩ ∧ ChangesOnly [.report] s t)

/-- R84 and R144: a step that fetches a word outside the 22 patterns of R2 completes, reports the instruction's address and the
word as fetched, and changes nothing but pc = a + 2 and prev_pc (and the model's two outputs: log 6). That a class-0 word is reported
is the spec's decision D12, that prev_pc takes the starting pc D17 (log 19). -/
def Obligations.StepOfUnhandledWordReportsIt : Prop :=
  ∀ (s : State) (w : Word), s.fault = none → s.fetchWord = .ok w →
    ((w.toNat < 4096 ∧ w ≠ 0x00E0#16 ∧ w ≠ 0x00EE#16) ∨
     (w.toNat / 4096 = 8 ∧ ((8 ≤ w.toNat % 16 ∧ w.toNat % 16 ≤ 13) ∨ w.toNat % 16 = 15)) ∨
     w.toNat / 4096 = 12 ∨ 14 ≤ w.toNat / 4096) →
    ∃ t, step s = .next t ∧ t.report = some ⟨s.pc, w⟩ ∧ t.pc = s.pc + 2#16 ∧ t.prevPc = some s.pc ∧
      ChangesOnly [.pc, .prevPc, .report, .stall] s t

/-! ### The step -/

/-- R80-R88: with no fault recorded and both bytes at pc inside `M`, a step executes the instruction those bytes decode to, high
byte first, on the state with pc advanced by 2 and the outputs cleared; if that records no fault, the stall signal compares the
starting pc with prev_pc, and prev_pc takes the starting pc. When stall is raised and what prev_pc latches are the spec's decision
D17 (log 19), that a faulting step keeps prev_pc is D15 (log 7), and that the outputs stand in State, cleared, is the model's log 6. -/
def Obligations.StepRunsTheDecodedInstruction : Prop :=
  ∀ (s t : State) (hi lo : Byte), s.fault = none → Memory.readByte s.mem s.pc.toNat = some hi →
    Memory.readByte s.mem (s.pc.toNat + 1) = some lo →
    exec (decodeWord (hi ++ lo)) { s with pc := s.pc + 2#16, report := none, stall := false } = .next t →
    step s = .next (if t.fault = none then { t with stall := decide (s.prevPc = some s.pc), prevPc := some s.pc } else t)

/-- R81 and R141: a fetch whose two bytes are not both inside `M` records OutOfBoundsAccess at the first failing byte (0x1000 for
pc = 0xFFF, else pc), with pc and no word; nothing else of the spec's state changes (decision D15; log 7). That pc does not wrap at 4096 is decision D6
(log 17). -/
def Obligations.FetchOutsideMemoryRecordsTheFault : Prop :=
  ∀ s : State, s.fault = none → 4095 ≤ s.pc.toNat →
    ∃ t, step s = .next t ∧
      t.fault = some ⟨.outOfBoundsAccess, some s.pc, none, some (if s.pc.toNat = 4095 then 4096 else s.pc.toNat)⟩ ∧
      ChangesOnly [.fault, .report, .stall] s t

/-- R80 and R147 (the latter the spec's decision D24): a step exists exactly when no fault is recorded; with one recorded the
machine stops, and by name. -/
def Obligations.StepExistsExactlyWithoutAFault : Prop :=
  ∀ s : State, (s.fault = none → ∃ t, step s = .next t) ∧ (s.fault ≠ none → step s = .fault .halted)

/-- R87 (the spec's decision D15), over every instruction and the fetch: a step that faults commits none of its writes; only
`fault` (and the model's outputs, which are empty then) differs from the state before it. -/
def Obligations.FaultingStepCommitsOnlyTheRecord : Prop :=
  ∀ s t : State, step s = .next t → t.fault ≠ none →
    ChangesOnly [.fault, .report, .stall] s t ∧ t.report = none ∧ t.stall = false

/-- R85 (the spec's decision D17; log 19), over every instruction: a step that does not fault raises stall exactly if prev_pc held its
starting pc, and leaves prev_pc = its starting pc. -/
def Obligations.CompletedStepLatchesItsStartingPc : Prop :=
  ∀ s t : State, step s = .next t → t.fault = none →
    t.prevPc = some s.pc ∧ (t.stall = true ↔ s.prevPc = some s.pc)

/-- R44, R28 and R8, over every instruction: no step changes a byte of memory, a timer (the spec's decision D22) or a parameter of the
machine. (That the
parameters stand in State is the model's choice: log 1.) -/
def Obligations.StepKeepsMemoryTimersAndParameters : Prop :=
  ∀ s t : State, step s = .next t → t.mem = s.mem ∧ t.dt = s.dt ∧ t.st = s.st ∧ t.params = s.params

/-- R25, R26 and R29, over every instruction: only Annn and Bnnn write I, only CALL and RET touch the stack, only CLS and DRW
write the framebuffer. -/
def Obligations.IndexStackAndFrameHaveOnlyTheirWriters : Prop :=
  ∀ (i : Instr) (s t : State), exec i s = .next t →
    (t.i ≠ s.i → ∃ nnn, i = .ldI nnn ∨ i = .ldIV0 nnn) ∧
    (t.stack ≠ s.stack → i = .ret ∨ ∃ nnn, i = .call nnn) ∧
    (t.fb ≠ s.fb → i = .cls ∨ ∃ x y n, i = .drw x y n)

/-- R21 and R22, over every instruction: VF changes only by the six flag-writing instructions or as the Vx of 6xnn, 7xnn and
8xy0-8xy3 with x = F (that the last three leave VF alone otherwise is the spec's decision D10). -/
def Obligations.FlagHasOnlyItsWriters : Prop :=
  ∀ (i : Instr) (s t : State), exec i s = .next t → t.getV VF ≠ s.getV VF →
    (∃ x y, i = .addReg x y ∨ i = .sub x y ∨ i = .subn x y ∨ i = .shr x y ∨ i = .shl x y ∨ ∃ n, i = .drw x y n) ∨
    (∃ nn, i = .ldImm VF nn ∨ i = .addImm VF nn) ∨
    (∃ y, i = .ldReg VF y ∨ i = .or VF y ∨ i = .and VF y ∨ i = .xor VF y)

/-- R24 (pc's width is the spec's decision D6), over every instruction: after the fetch, pc changes in one of four ways; or the
instruction has faulted and pc is back at its own address (R87, the spec's decision D15; log 7). -/
def Obligations.PcChangesInOneOfFourWays : Prop :=
  ∀ (i : Instr) (s t : State), s.fault = none → exec i s = .next t →
    (t.fault = none ∧
      (t.pc = s.pc ∨
       (t.pc = s.pc + 2#16 ∧ ∃ x y nn, i = .seImm x nn ∨ i = .sneImm x nn ∨ i = .seReg x y ∨ i = .sneReg x y) ∨
       (∃ nnn, (i = .jp nnn ∨ i = .call nnn) ∧ t.pc.toNat = nnn.toNat) ∨
       (i = .ret ∧ s.stack = t.pc :: t.stack))) ∨
    (t.fault ≠ none ∧ t.pc = s.pc - 2#16 ∧ (i = .ret ∨ (∃ nnn, i = .call nnn) ∨ ∃ x y n, i = .drw x y n))

/-- R92's corner case: a CALL followed by a RET at its target restores pc to the instruction after the CALL and the stack to
what it was. Two steps from any state with room on the stack whose memory holds 2nnn at pc and 00EE at nnn. -/
def Obligations.CallThenRetReturnsAfterTheCall : Prop :=
  ∀ (s : State) (nnn : Addr12), s.fault = none → s.sp ≠ s.params.stackDepth →
    s.fetchWord = .ok (0x2#4 ++ nnn) →
    Memory.readByte s.mem nnn.toNat = some 0x00#8 → Memory.readByte s.mem (nnn.toNat + 1) = some 0xEE#8 →
    ∃ t u, step s = .next t ∧ step t = .next u ∧ u.pc = s.pc + 2#16 ∧ u.stack = s.stack ∧ u.fault = none

/-- R85 and R91's corner case (when the signal fires is the spec's decision D17; log 19): a jump to its own address raises the stall
signal on its second step and on every later one, and the machine goes on. -/
def Obligations.SelfJumpRaisesStallFromTheSecondStep : Prop :=
  ∀ (s : State) (nnn : Addr12) (k : Nat), s.fault = none → s.pc.toNat = nnn.toNat → s.fetchWord = .ok (0x1#4 ++ nnn) →
    ∃ t, Sys2Proof.core.run (k + 2) s = .next t ∧ t.pc = s.pc ∧ t.stall = true ∧ t.fault = none

/-- R84-R86 (what `stall` and `report` are): they are outputs of a step, and no step reads them, so they are no hidden state of
the machine. That they stand in State is the model's choice: log 6. -/
def Obligations.StepDoesNotReadItsOutputs : Prop :=
  ∀ (s : State) (r : Option Report) (b : Bool), step { s with report := r, stall := b } = step s

/-- R28 and R151 (the spec's decision D22), as noninterference: two machines that differ only in their timers make the same steps, and the timers stay as
they were. -/
def Obligations.TimersAreInvisibleToEveryStep : Prop :=
  ∀ (s : State) (d e : Byte),
    (∀ t, step s = .next t → step (s.writeTimers d e) = .next (t.writeTimers d e)) ∧
    (∀ r, step s = .fault r → step (s.writeTimers d e) = .fault r)

/-- The invariant of the model (State.Inv: canonical memory; R26 stack within its capacity; R24 pc at most 4098; return
addresses at most 4096; R25 I at most 0x10FE; R146 a well-formed record) is kept by every step. The bounds rest on the spec's
decisions D6 (pc) and D8 (Bnnn), the record on D15. -/
def Obligations.StepKeepsTheInvariant : Prop :=
  ∀ s t : State, s.Inv → step s = .next t → t.Inv

/-! ### Reset, construction and the host's operations -/

/-- The invariant holds after reset (pc is the spec's decision D4, I D5; STACK_DEPTH is the model's log 2). -/
def Obligations.ResetSatisfiesTheInvariant : Prop := State.reset.Inv

/-- The invariant holds when any image has been loaded into a machine constructed with any STACK_DEPTH ≥ 1, BNNN_VARIANT and
FONT, the image that does not fit included (R162, R163; the spec's decisions D4 and D23). -/
def Obligations.BootedMachineSatisfiesTheInvariant : Prop :=
  ∀ (p : Params) (font : Vector Byte 80) (image : List Byte), 1 ≤ p.stackDepth → (State.boot p font image).Inv

/-- R34 and R160, the state after reset. V, I, the timers and the framebuffer at 0 are the spec's decision D5 (log 5), pc D4 (log 17),
fault at none D15 (log 7), prev_pc at none D17 (log 19), the font
window D2 and its 80 bytes, those of R31's table, D3 (log 4); the parameters' values are log 2 and log 3, the outputs' log 6. The
last clause: reset is construction with the default parameters and FONT. -/
def Obligations.ResetStateIsAsTheSpecLists : Prop :=
  State.reset.pc = 0x200#16 ∧ State.reset.i = 0#16 ∧ State.reset.stack = [] ∧ State.reset.fault = none ∧
  State.reset.prevPc = none ∧ State.reset.dt = 0#8 ∧ State.reset.st = 0#8 ∧ (∀ r, State.reset.getV r = 0#8) ∧
  (∀ r c, State.reset.fb.pixel r c = false) ∧
  (∀ a, a < 0x50 → Memory.readByte State.reset.mem a = some 0#8) ∧
  (∀ a, 0xA0 ≤ a → a < 0x1000 → Memory.readByte State.reset.mem a = some 0#8) ∧
  Memory.readBytes State.reset.mem 0x50 80 = .ok (
    [0xF0, 0x90, 0x90, 0x90, 0xF0] ++ [0x20, 0x60, 0x20, 0x20, 0x70] ++ [0xF0, 0x10, 0xF0, 0x80, 0xF0] ++
    [0xF0, 0x10, 0xF0, 0x10, 0xF0] ++ [0x90, 0x90, 0xF0, 0x10, 0x10] ++ [0xF0, 0x80, 0xF0, 0x10, 0xF0] ++
    [0xF0, 0x80, 0xF0, 0x90, 0xF0] ++ [0xF0, 0x10, 0x20, 0x40, 0x40] ++ [0xF0, 0x90, 0xF0, 0x90, 0xF0] ++
    [0xF0, 0x90, 0xF0, 0x10, 0xF0] ++ [0xF0, 0x90, 0xF0, 0x90, 0x90] ++ [0xE0, 0x90, 0xE0, 0x90, 0xE0] ++
    [0xF0, 0x80, 0x80, 0x80, 0xF0] ++ [0xE0, 0x90, 0x90, 0x90, 0xE0] ++ [0xF0, 0x80, 0xF0, 0x80, 0xF0] ++
    [0xF0, 0x80, 0xF0, 0x80, 0x80]) ∧
  State.construct defaultParams defaultFont = State.reset

/-- R31, R34 and R160 for any FONT and parameters (R8: "The model takes STACK_DEPTH, FONT and BNNN_VARIANT as arguments"; the
window's place is the spec's decision D2): construction leaves FONT at 0x050..0x09F and zero in every other byte. -/
def Obligations.ConstructionInstallsAnyFont : Prop :=
  ∀ (p : Params) (font : Vector Byte 80) (a : Nat), a < 4096 →
    (State.construct p font).params = p ∧
    (∀ (h : a - 0x50 < 80), 0x50 ≤ a → Memory.readByte (State.construct p font).mem a = some font[a - 0x50]) ∧
    (a < 0x50 ∨ 0xA0 ≤ a → Memory.readByte (State.construct p font).mem a = some 0#8)

/-- R41: a read of `M` fails at every address ≥ 4096 and at no other. -/
def Obligations.MemReadFailsExactlyOutsideMemory : Prop :=
  ∀ (m : Memory) (a : Nat), Memory.readByte m a = none ↔ 4096 ≤ a

/-- R44 and R163, load_program. An image that fits (or is empty) is stored byte for byte from the offset, every other byte
unchanged, and pc <- offset. One that does not fit writes nothing, leaves pc and records OutOfBoundsAccess at offset + len - 1
(the spec's decision D23; that the record has no pc and no word is the model's: log 8, its address log 9). It is said of every
state, one with a fault recorded too: that such a CORE takes the load as any other, and that a load that does not fit replaces the
old record, is the model's log 18. -/
def Obligations.LoadProgramStoresTheImageOrFaults : Prop :=
  ∀ (s : State) (image : List Byte) (offset : Word), Memory.wf s.mem = true →
    (image = [] ∨ offset.toNat + image.length ≤ 4096 →
      (∀ j, (h : j < image.length) →
        Memory.readByte (s.loadProgram image offset).mem (offset.toNat + j) = some image[j]) ∧
      (∀ a, a < offset.toNat ∨ offset.toNat + image.length ≤ a →
        Memory.readByte (s.loadProgram image offset).mem a = Memory.readByte s.mem a) ∧
      (s.loadProgram image offset).pc = offset ∧
      (∀ p : Part, p ≠ .pc → (∀ a, p ≠ .mem a) → p.same s (s.loadProgram image offset))) ∧
    (image ≠ [] → 4096 < offset.toNat + image.length →
      (s.loadProgram image offset).fault =
        some ⟨.outOfBoundsAccess, none, none, some (offset.toNat + image.length - 1)⟩ ∧
      ChangesOnly [.fault] s (s.loadProgram image offset))

/-- R50: a load is seen by the next fetch: after it, the word at pc is the image's first two bytes, high byte first. That a fetch
sees every earlier host write is the spec's decision D19 (log 11). -/
def Obligations.LoadIsSeenByTheNextFetch : Prop :=
  ∀ (s : State) (hi lo : Byte) (rest : List Byte) (offset : Word), Memory.wf s.mem = true →
    offset.toNat + 2 + rest.length ≤ 4096 → (s.loadProgram (hi :: lo :: rest) offset).fetchWord = .ok (hi ++ lo)

/-- R86: what the host's call of step() returns. No step after a fault; Fault(record) when the step faulted; Reported with the
address and word when it fetched an UNHANDLED word, else Ok, both with the stall signal of R85. No step after a fault is the spec's
decision D24, the record D15 (log 7), the report of class-0 words D12, the stall signal D17 (log 19). -/
def Obligations.StepCallReturnsOneOfThreeResults : Prop :=
  ∀ s : State,
    (s.fault ≠ none → stepCall s = none) ∧
    (s.fault = none → ∃ t res, step s = .next t ∧ stepCall s = some (t, res) ∧
      (∀ f, t.fault = some f → res = .fault f) ∧
      (t.fault = none → ∃ w, s.fetchWord = .ok w ∧
        ((∃ low, decodeWord w = .unhandled0 low ∨ decodeWord w = .unhandled8 low ∨ decodeWord w = .unhandledC low ∨
            decodeWord w = .unhandledE low ∨ decodeWord w = .unhandledF low) →
          res = .reported ⟨s.pc, w⟩ (decide (s.prevPc = some s.pc))) ∧
        ((∀ low, decodeWord w ≠ .unhandled0 low ∧ decodeWord w ≠ .unhandled8 low ∧ decodeWord w ≠ .unhandledC low ∧
            decodeWord w ≠ .unhandledE low ∧ decodeWord w ≠ .unhandledF low) →
          res = .ok (decide (s.prevPc = some s.pc)))))

/-- R140 (the numbers are the spec's decision D16): the code of each fatal kind, of the report, and 0 for none; the code of what
`fault` holds is its record's, or 0. -/
def Obligations.ErrorCodesAreAsListed : Prop :=
  FaultKind.code .outOfBoundsAccess = 1 ∧ FaultKind.code .stackOverflow = 2 ∧ FaultKind.code .stackUnderflow = 3 ∧
  unknownOpcodeCode = 4 ∧ (∀ r : FaultRecord, r.code = r.kind.code) ∧
  (∀ s : State, s.fault = none → s.faultCode = 0) ∧ (∀ (s : State) (r : FaultRecord), s.fault = some r → s.faultCode = r.kind.code)

/-- R156, what the host gets back from load_program, in every state: ok exactly if the image fits or is empty, else
OutOfBoundsAccess with the address of R163 (the spec's decision D23; log 9), beside the state of `loadProgram`. That a CORE with a
fault recorded answers as any other is the model's log 18. -/
def Obligations.LoadCallAnswersOkOrOutOfBounds : Prop :=
  ∀ (s : State) (image : List Byte) (offset : Word),
    (image = [] ∨ offset.toNat + image.length ≤ 4096 →
      loadCall s image offset = (s.loadProgram image offset, .ok)) ∧
    (image ≠ [] → 4096 < offset.toNat + image.length →
      loadCall s image offset = (s.loadProgram image offset, .outOfBoundsAccess (offset.toNat + image.length - 1)))
end

