-- ==== Sys2Proof/Laws/Decode.lean ====
section
/-! SUPPORT. What the fields of a concatenation are, and what a word is made of: the lemmas that decoding and encoding proofs cite (spec/30_encoding.md R61, R63). -/

namespace Sys2Proof.Laws

/-- The value of a concatenation, in the form omega reads. -/
theorem append_toNat {n m : Nat} (a : BitVec n) (b : BitVec m) : (a ++ b).toNat = a.toNat * 2 ^ m + b.toNat := by
  rw [BitVec.toNat_append, ← Nat.shiftLeft_add_eq_or_of_lt b.isLt, Nat.shiftLeft_eq]

theorem toNat_class_x_nn (c x : BitVec 4) (k : BitVec 8) :
    BitVec.toNat (w := 16) (c ++ x ++ k) = c.toNat * 4096 + x.toNat * 256 + k.toNat := by
  refine (append_toNat (c ++ x) k).trans ?_
  rw [append_toNat]; omega

theorem toNat_class_x_y_n (c x y n : BitVec 4) :
    BitVec.toNat (w := 16) (c ++ x ++ y ++ n) = c.toNat * 4096 + x.toNat * 256 + y.toNat * 16 + n.toNat := by
  refine (append_toNat (c ++ x ++ y) n).trans ?_
  rw [append_toNat, append_toNat]; omega

theorem toNat_class_nnn (c : BitVec 4) (k : BitVec 12) : BitVec.toNat (w := 16) (c ++ k) = c.toNat * 4096 + k.toNat :=
  append_toNat c k

theorem fieldClass_toNat (w : Word) : (fieldClass w).toNat = w.toNat / 4096 := by
  simp only [fieldClass, BitVec.extractLsb'_toNat, Nat.shiftRight_eq_div_pow]; omega

theorem fieldX_toNat (w : Word) : (fieldX w).toNat = w.toNat / 256 % 16 := by
  simp only [fieldX, BitVec.extractLsb'_toNat, Nat.shiftRight_eq_div_pow]

theorem fieldY_toNat (w : Word) : (fieldY w).toNat = w.toNat / 16 % 16 := by
  simp only [fieldY, BitVec.extractLsb'_toNat, Nat.shiftRight_eq_div_pow]

theorem fieldN_toNat (w : Word) : (fieldN w).toNat = w.toNat % 16 := by
  simp only [fieldN, BitVec.extractLsb'_toNat, Nat.shiftRight_eq_div_pow]; omega

theorem fieldNN_toNat (w : Word) : (fieldNN w).toNat = w.toNat % 256 := by
  simp only [fieldNN, BitVec.extractLsb'_toNat, Nat.shiftRight_eq_div_pow]; omega

theorem fieldNNN_toNat (w : Word) : (fieldNNN w).toNat = w.toNat % 4096 := by
  simp only [fieldNNN, BitVec.extractLsb'_toNat, Nat.shiftRight_eq_div_pow]; omega

@[simp] theorem fieldClass_class_x_nn (c x : BitVec 4) (k : BitVec 8) : fieldClass (c ++ x ++ k) = c := by
  apply BitVec.eq_of_toNat_eq; rw [fieldClass_toNat, toNat_class_x_nn]; omega

@[simp] theorem fieldX_class_x_nn (c x : BitVec 4) (k : BitVec 8) : fieldX (c ++ x ++ k) = x := by
  apply BitVec.eq_of_toNat_eq; rw [fieldX_toNat, toNat_class_x_nn]; omega

@[simp] theorem fieldNN_class_x_nn (c x : BitVec 4) (k : BitVec 8) : fieldNN (c ++ x ++ k) = k := by
  apply BitVec.eq_of_toNat_eq; rw [fieldNN_toNat, toNat_class_x_nn]; omega

@[simp] theorem fieldClass_class_x_y_n (c x y n : BitVec 4) : fieldClass (c ++ x ++ y ++ n) = c := by
  apply BitVec.eq_of_toNat_eq; rw [fieldClass_toNat, toNat_class_x_y_n]; omega

@[simp] theorem fieldX_class_x_y_n (c x y n : BitVec 4) : fieldX (c ++ x ++ y ++ n) = x := by
  apply BitVec.eq_of_toNat_eq; rw [fieldX_toNat, toNat_class_x_y_n]; omega

@[simp] theorem fieldY_class_x_y_n (c x y n : BitVec 4) : fieldY (c ++ x ++ y ++ n) = y := by
  apply BitVec.eq_of_toNat_eq; rw [fieldY_toNat, toNat_class_x_y_n]; omega

@[simp] theorem fieldN_class_x_y_n (c x y n : BitVec 4) : fieldN (c ++ x ++ y ++ n) = n := by
  apply BitVec.eq_of_toNat_eq; rw [fieldN_toNat, toNat_class_x_y_n]; omega

@[simp] theorem fieldClass_class_nnn (c : BitVec 4) (k : BitVec 12) : fieldClass (c ++ k) = c := by
  apply BitVec.eq_of_toNat_eq; rw [fieldClass_toNat, toNat_class_nnn]; omega

@[simp] theorem fieldNNN_class_nnn (c : BitVec 4) (k : BitVec 12) : fieldNNN (c ++ k) = k := by
  apply BitVec.eq_of_toNat_eq; rw [fieldNNN_toNat, toNat_class_nnn]; omega

/-- Every word is its class followed by its nnn field. -/
theorem word_eq_class_nnn (w : Word) : fieldClass w ++ fieldNNN w = w := by
  apply BitVec.eq_of_toNat_eq; rw [toNat_class_nnn, fieldClass_toNat, fieldNNN_toNat]; omega

/-- Every word is its class followed by its x and nn fields. -/
theorem word_eq_class_x_nn (w : Word) : fieldClass w ++ fieldX w ++ fieldNN w = w := by
  apply BitVec.eq_of_toNat_eq; rw [toNat_class_x_nn, fieldClass_toNat, fieldX_toNat, fieldNN_toNat]; omega

/-- Every word is its class followed by its x, y and n fields. -/
theorem word_eq_class_x_y_n (w : Word) : fieldClass w ++ fieldX w ++ fieldY w ++ fieldN w = w := by
  apply BitVec.eq_of_toNat_eq; rw [toNat_class_x_y_n, fieldClass_toNat, fieldX_toNat, fieldY_toNat, fieldN_toNat]; omega

/-- The low nibble of the nnn field is the n field. -/
theorem fieldNNN_low_nibble (w : Word) : (fieldNNN w).extractLsb' 0 4 = fieldN w := by
  apply BitVec.eq_of_toNat_eq
  rw [fieldN_toNat, BitVec.extractLsb'_toNat, fieldNNN_toNat, Nat.shiftRight_eq_div_pow]; omega

theorem highByte_toNat (w : Word) : (highByte w).toNat = w.toNat / 256 := by
  simp only [highByte, BitVec.extractLsb'_toNat, Nat.shiftRight_eq_div_pow]; omega

theorem lowByte_toNat (w : Word) : (lowByte w).toNat = w.toNat % 256 := by
  simp only [lowByte, BitVec.extractLsb'_toNat, Nat.shiftRight_eq_div_pow]; omega

theorem wordOfBytes_toNat (hi lo : Byte) : (wordOfBytes hi lo).toNat = hi.toNat * 256 + lo.toNat := append_toNat hi lo

/-- The two bytes of a word, put together, are the word (R42). -/
@[simp] theorem wordOfBytes_highByte_lowByte (w : Word) : wordOfBytes (highByte w) (lowByte w) = w := by
  apply BitVec.eq_of_toNat_eq; rw [wordOfBytes_toNat, highByte_toNat, lowByte_toNat]; omega

/-- Two whole bytes decode to the instruction of their word, and the rest of the bytes is left (R60). -/
@[simp] theorem decode_cons_cons (hi lo : Byte) (rest : List Byte) :
    decode (hi :: lo :: rest) = .ok (decodeWord (wordOfBytes hi lo), rest) := rfl

end Sys2Proof.Laws
end

