-- ==== Sys2Proof/Laws/Memory.lean ====
section
/-! SUPPORT. Memory: read after write, the canonical form kept by every operation, and equal reads mean equal memories (spec/20_memory.md R41-R48). -/

namespace Sys2Proof.Machine.Memory

/-- The canonical form, one byte at a time: the first entry lies below the rest, inside `M`, and differs from the reset
contents. -/
theorem wf_cons (p : Host.Cell) (m : Memory) :
    wf (p :: m) = true ↔ (∀ q ∈ m, p.1 < q.1) ∧ p.1 < memSize ∧ p.2 ≠ unlistedByte p.1 ∧ wf m = true := by
  simp only [wf, List.pairwise_cons, List.all_cons, Bool.and_eq_true, decide_eq_true_eq, bne_iff_ne]
  tauto

@[simp] theorem wf_nil : wf [] = true := by decide

/-- An address below every entry is unlisted. -/
theorem lookup_below (m : Memory) (a : Nat) (h : ∀ q ∈ m, a < q.1) : lookup m a = none := by
  induction m with
  | nil => rfl
  | cons q m ih =>
    have := h q (by simp)
    simp only [lookup]
    rw [if_neg (by omega), ih fun r hr => h r (by simp [hr])]

/-- A byte put is the byte looked up; an address at which the reset contents were put is unlisted. -/
theorem lookup_put (m : Memory) (a a' : Nat) (b : Byte) (h : m.Pairwise fun p q => p.1 < q.1) :
    (lookup (put m a b) a').getD (unlistedByte a') = if a' = a then b else (lookup m a').getD (unlistedByte a') := by
  induction m with
  | nil => by_cases hb : b = unlistedByte a <;> by_cases e : a' = a <;> simp_all [put, lookup, eq_comm]
  | cons q m ih =>
    obtain ⟨k, c⟩ := q
    obtain ⟨hlt, hm⟩ := List.pairwise_cons.1 h
    have ih := ih hm
    by_cases h1 : a < k
    · have habove : lookup ((k, c) :: m) a = none :=
        lookup_below _ _ (by simp only [List.mem_cons, forall_eq_or_imp]; exact ⟨h1, fun r hr => lt_trans h1 (hlt r hr)⟩)
      by_cases hb : b = unlistedByte a <;> by_cases e : a' = a
      · subst e; rw [put, if_pos h1, if_pos hb, habove, if_pos rfl, hb]; rfl
      · simp only [put, if_pos h1, if_pos hb, if_neg e]
      · subst e; simp only [put, if_pos h1, if_neg hb, lookup]; simp
      · simp only [put, if_pos h1, if_neg hb, if_neg e, lookup, if_neg (Ne.symm e)]
    · by_cases h2 : a = k
      · subst h2
        have habove : lookup m a = none := lookup_below _ _ hlt
        by_cases hb : b = unlistedByte a <;> by_cases e : a' = a
        · subst e; rw [put, if_neg h1, if_pos rfl, if_pos hb, habove, if_pos rfl, hb]; rfl
        · simp only [put, if_neg h1, if_pos hb, if_neg e, lookup, if_neg (Ne.symm e)]; simp
        · subst e; rw [put, if_neg h1, if_pos rfl, if_neg hb, lookup]; simp
        · simp only [put, if_neg h1, if_neg hb, if_neg e, lookup, if_neg (Ne.symm e)]; simp [lookup, Ne.symm e]
      · simp only [put, if_neg h1, if_neg h2, lookup]
        by_cases e : k = a'
        · subst e; simp [Ne.symm h2]
        · simp only [if_neg e, ih]

/-- Every entry after a put was there before or is the one put. -/
theorem mem_put (m : Memory) (a : Nat) (b : Byte) (q : Host.Cell) (h : q ∈ put m a b) :
    q ∈ m ∨ (q = (a, b) ∧ b ≠ unlistedByte a) := by
  induction m with
  | nil => simp only [put] at h; split_ifs at h with hb <;> simp_all
  | cons r m ih =>
    simp only [put] at h
    split_ifs at h with h1 hb h2 hb
    · exact .inl h
    · rcases List.mem_cons.1 h with rfl | h
      · exact .inr ⟨rfl, hb⟩
      · exact .inl h
    · exact .inl (List.mem_cons_of_mem _ h)
    · rcases List.mem_cons.1 h with rfl | h
      · exact .inr ⟨rfl, hb⟩
      · exact .inl (List.mem_cons_of_mem _ h)
    · rcases List.mem_cons.1 h with rfl | h
      · simp
      · rcases ih h with h | h
        · exact .inl (List.mem_cons_of_mem _ h)
        · exact .inr h

/-- A put inside `M` keeps the canonical form. -/
theorem put_wf (m : Memory) (a : Nat) (b : Byte) (ha : a < memSize) (h : wf m = true) : wf (put m a b) = true := by
  induction m with
  | nil => simp only [put]; split_ifs with hb <;> simp_all [wf_cons]
  | cons q m ih =>
    obtain ⟨hlt, hk, hc, hm⟩ := (wf_cons q m).1 h
    simp only [put]
    split_ifs with h1 hb h2 hb
    · exact h
    · refine (wf_cons _ _).2 ⟨?_, ha, hb, h⟩
      simp only [List.mem_cons, forall_eq_or_imp]
      exact ⟨h1, fun r hr => lt_trans h1 (hlt r hr)⟩
    · exact hm
    · exact (wf_cons _ _).2 ⟨fun r hr => h2 ▸ hlt r hr, ha, hb, hm⟩
    · refine (wf_cons _ _).2 ⟨fun r hr => ?_, hk, hc, ih hm⟩
      rcases mem_put m a b r hr with hr | ⟨rfl, -⟩
      · exact hlt r hr
      · show q.1 < a; omega

/-- One byte written keeps the canonical form. -/
theorem writeByte_wf (m : Memory) (a : Nat) (b : Byte) (h : wf m = true) : wf (writeByte m a b) = true := by
  simp only [writeByte]; split_ifs with ha
  · exact put_wf m a b ha h
  · exact h

/-- Bytes written keep the canonical form. -/
theorem writeBytes_wf (m : Memory) (a : Nat) (bs : List Byte) (h : wf m = true) : wf (writeBytes m a bs) = true := by
  induction bs generalizing m a with
  | nil => exact h
  | cons b bs ih => exact ih _ _ (writeByte_wf m a b h)

/-- What MemWrite can do (R44): fail at the last address, outside `M`, or write every byte inside `M`. -/
theorem memWrite_cases (m : Memory) (a : Nat) (bs : List Byte) :
    (0 < bs.length ∧ 4096 ≤ a + bs.length - 1 ∧ memWrite m a bs = .error (a + bs.length - 1)) ∨
    ((bs = [] ∨ a + bs.length ≤ 4096) ∧ memWrite m a bs = .ok (writeBytes m a bs)) := by
  simp only [memWrite]; split_ifs with h
  · exact .inl ⟨h.1, h.2, rfl⟩
  · refine .inr ⟨?_, rfl⟩
    cases bs with
    | nil => exact .inl rfl
    | cons b bs => simp only [memSize, List.length_cons] at h ⊢; right; omega

/-- A MemWrite that succeeds keeps the canonical form. -/
theorem memWrite_wf (m m' : Memory) (a : Nat) (bs : List Byte) (h : wf m = true) (hw : memWrite m a bs = .ok m') :
    wf m' = true := by
  rcases memWrite_cases m a bs with ⟨-, -, e⟩ | ⟨-, e⟩
  · simp [e] at hw
  · rw [e] at hw; cases hw; exact writeBytes_wf m a bs h

/-- A byte written inside `M` is read back; every other address reads as before. -/
theorem readByte_writeByte (m : Memory) (a a' : Nat) (b : Byte) (h : wf m = true) :
    readByte (writeByte m a b) a' = if a' = a ∧ a < memSize then some b else readByte m a' := by
  have hp : m.Pairwise fun p q => p.1 < q.1 := by
    simp only [wf, Bool.and_eq_true, decide_eq_true_eq] at h; exact h.1
  by_cases ha : a < memSize
  · by_cases ha' : a' < memSize
    · by_cases e : a' = a <;> simp_all [readByte, writeByte, lookup_put]
    · have : a' ≠ a := fun e => ha' (e ▸ ha)
      simp [readByte, ha', this]
  · simp [writeByte, ha]

/-- Bytes written inside `M` are read back at their addresses; every other address reads as before (R44, R48). -/
theorem readByte_writeBytes (m : Memory) (a a' : Nat) (bs : List Byte) (h : wf m = true) :
    readByte (writeBytes m a bs) a' =
      if a ≤ a' ∧ a' < a + bs.length ∧ a' < memSize then bs[a' - a]? else readByte m a' := by
  induction bs generalizing m a with
  | nil => rw [if_neg (by simp only [List.length_nil]; omega)]; rfl
  | cons b bs ih =>
    rw [writeBytes, ih _ _ (writeByte_wf m a b h), readByte_writeByte m a a' b h]
    by_cases e : a' = a
    · subst e
      by_cases hb : a' < memSize
      · simp [hb]
      · simp [hb]
    · by_cases hr : a + 1 ≤ a' ∧ a' < a + 1 + bs.length ∧ a' < memSize
      · rw [if_pos hr, if_pos (by simp only [List.length_cons]; omega)]
        obtain ⟨d, hd⟩ : ∃ d, a' - a = d + 1 := ⟨a' - a - 1, by omega⟩
        rw [hd, show a' - (a + 1) = d by omega]; rfl
      · rw [if_neg hr, if_neg (fun hc => e hc.1), if_neg (fun hc => hr ?_)]
        simp only [List.length_cons] at hc; exact ⟨by omega, by omega, hc.2.2⟩

/-- A read fails exactly outside `M` (R41). -/
theorem readByte_eq_none (m : Memory) (a : Nat) : readByte m a = none ↔ 4096 ≤ a := by
  simp only [readByte, memSize]; split_ifs with h
  · simp; omega
  · simp; omega

/-- Memories in canonical form that read the same everywhere are the same list. -/
theorem ext_of_readByte (m m' : Memory) (h : wf m = true) (h' : wf m' = true)
    (hr : ∀ a, readByte m a = readByte m' a) : m = m' := by
  have lookup_of : ∀ (m : Memory), wf m = true → ∀ a c, lookup m a = some c → a < memSize ∧ c ≠ unlistedByte a := by
    intro m hm a c hl
    induction m with
    | nil => simp [lookup] at hl
    | cons q m ih =>
      obtain ⟨-, hk, hc, hm⟩ := (wf_cons q m).1 hm
      simp only [lookup] at hl
      split_ifs at hl with e
      · cases hl; exact e ▸ ⟨hk, hc⟩
      · exact ih hm hl
  have hl : ∀ a, lookup m a = lookup m' a := by
    intro a
    have := hr a
    cases e : lookup m a with
    | none =>
      cases e' : lookup m' a with
      | none => rfl
      | some c =>
        obtain ⟨ha, hc⟩ := lookup_of m' h' a c e'
        simp [readByte, ha, e, e'] at this; exact absurd this.symm hc
    | some c =>
      obtain ⟨ha, hc⟩ := lookup_of m h a c e
      cases e' : lookup m' a with
      | none => simp [readByte, ha, e, e'] at this; exact absurd this hc
      | some c' => simpa [readByte, ha, e, e'] using this
  clear hr lookup_of
  induction m generalizing m' with
  | nil =>
    cases m' with
    | nil => rfl
    | cons q m' => have := hl q.1; simp [lookup] at this
  | cons p m ih =>
    obtain ⟨hp, -, -, hm⟩ := (wf_cons p m).1 h
    cases m' with
    | nil => have := hl p.1; simp [lookup] at this
    | cons q m' =>
      obtain ⟨hq, -, -, hm'⟩ := (wf_cons q m').1 h'
      have hk : p.1 = q.1 := by
        by_contra hne
        rcases Nat.lt_or_gt_of_ne hne with hlt | hlt
        · have := hl p.1
          rw [lookup_below (q :: m') p.1 (by simp only [List.mem_cons, forall_eq_or_imp]; exact ⟨hlt, fun r hr => lt_trans hlt (hq r hr)⟩)] at this
          simp [lookup] at this
        · have := hl q.1
          rw [lookup_below (p :: m) q.1 (by simp only [List.mem_cons, forall_eq_or_imp]; exact ⟨hlt, fun r hr => lt_trans hlt (hp r hr)⟩)] at this
          simp [lookup] at this
      have hc : p.2 = q.2 := by have := hl p.1; simpa [lookup, hk] using this
      have hrest : m = m' := by
        refine ih m' hm hm' fun a => ?_
        by_cases e : p.1 = a
        · subst e; rw [lookup_below m p.1 hp, lookup_below m' p.1 (fun r hr => hk ▸ hq r hr)]
        · have := hl a; simpa [lookup, e, hk ▸ e] using this
      rw [hrest, Prod.ext hk hc]

/-- What reading `n` bytes can do (R126): all of them, in order, where all lie inside `M`; else the lowest address outside `M`. -/
theorem readBytes_cases (m : Memory) (a n : Nat) :
    ((n = 0 ∨ a + n ≤ 4096) ∧ ∃ bs, readBytes m a n = .ok bs ∧ bs.length = n ∧
      ∀ r, r < n → bs[r]? = readByte m (a + r)) ∨
    (n ≠ 0 ∧ 4096 < a + n ∧ readBytes m a n = .error (max a 4096)) := by
  induction n generalizing a with
  | zero => exact .inl ⟨.inl rfl, [], rfl, rfl, by simp⟩
  | succ n ih =>
    cases e : readByte m a with
    | none =>
      have ha := (readByte_eq_none m a).1 e
      refine .inr ⟨by omega, by omega, ?_⟩
      simp only [readBytes, e]; rw [max_eq_left (by omega)]
    | some b =>
      have ha : ¬ 4096 ≤ a := fun h => by simp [(readByte_eq_none m a).2 h] at e
      rcases ih (a + 1) with ⟨hin, bs, hbs, hlen, hget⟩ | ⟨h0, hout, herr⟩
      · refine .inl ⟨.inr (by omega), b :: bs, by simp [readBytes, e, hbs], by simp [hlen], ?_⟩
        intro r hr
        cases r with
        | zero => simpa using e.symm
        | succ r => have := hget r (by omega); simpa [Nat.add_assoc, Nat.add_comm 1 r] using this
      · refine .inr ⟨by omega, by omega, ?_⟩
        simp only [readBytes, e, herr]; rw [max_eq_right (by omega), max_eq_right (by omega)]

end Sys2Proof.Machine.Memory

namespace Sys2Proof.Machine

/-- Reset memory is in canonical form. -/
theorem State.reset_mem_wf : Memory.wf State.reset.mem = true := by decide

/-- Construction's memory is in canonical form, whatever FONT is. -/
theorem State.construct_mem_wf (p : Params) (font : Vector Byte 80) : Memory.wf (State.construct p font).mem = true :=
  Memory.writeBytes_wf _ _ _ (by decide)

/-- Reset is construction with the default parameters and the default FONT. -/
theorem State.construct_default : State.construct defaultParams defaultFont = State.reset := by decide

/-- Placing a word for the next fetch keeps the canonical form. -/
theorem State.withFetchWord_mem_wf (s : State) (nbits w : Nat) (h : Memory.wf s.mem = true) :
    Memory.wf (s.withFetchWord nbits w).mem = true := Memory.writeBytes_wf _ _ _ h

end Sys2Proof.Machine
end

