-- ==== Sys2Proof/Laws/State.lean ====
section
/-! SUPPORT. One lemma per field per update of State, each true by rfl and tagged simp, and reading a register after each update. -/

namespace Sys2Proof.Machine.State

/-! ### setV -/

@[simp] theorem setV_mem (s : State) (r : Reg) (b : Byte) : (s.setV r b).mem = s.mem := rfl
@[simp] theorem setV_fb (s : State) (r : Reg) (b : Byte) : (s.setV r b).fb = s.fb := rfl
@[simp] theorem setV_stack (s : State) (r : Reg) (b : Byte) : (s.setV r b).stack = s.stack := rfl
@[simp] theorem setV_pc (s : State) (r : Reg) (b : Byte) : (s.setV r b).pc = s.pc := rfl
@[simp] theorem setV_i (s : State) (r : Reg) (b : Byte) : (s.setV r b).i = s.i := rfl
@[simp] theorem setV_v (s : State) (r : Reg) (b : Byte) : (s.setV r b).v = s.v.set r.toNat b := rfl
@[simp] theorem setV_dt (s : State) (r : Reg) (b : Byte) : (s.setV r b).dt = s.dt := rfl
@[simp] theorem setV_st (s : State) (r : Reg) (b : Byte) : (s.setV r b).st = s.st := rfl
@[simp] theorem setV_fault (s : State) (r : Reg) (b : Byte) : (s.setV r b).fault = s.fault := rfl
@[simp] theorem setV_prevPc (s : State) (r : Reg) (b : Byte) : (s.setV r b).prevPc = s.prevPc := rfl
@[simp] theorem setV_report (s : State) (r : Reg) (b : Byte) : (s.setV r b).report = s.report := rfl
@[simp] theorem setV_stall (s : State) (r : Reg) (b : Byte) : (s.setV r b).stall = s.stall := rfl
@[simp] theorem setV_params (s : State) (r : Reg) (b : Byte) : (s.setV r b).params = s.params := rfl

/-! ### setResultAndFlag -/

@[simp] theorem setResultAndFlag_mem (s : State) (x : Reg) (b f : Byte) : (s.setResultAndFlag x b f).mem = s.mem := rfl
@[simp] theorem setResultAndFlag_fb (s : State) (x : Reg) (b f : Byte) : (s.setResultAndFlag x b f).fb = s.fb := rfl
@[simp] theorem setResultAndFlag_stack (s : State) (x : Reg) (b f : Byte) : (s.setResultAndFlag x b f).stack = s.stack := rfl
@[simp] theorem setResultAndFlag_pc (s : State) (x : Reg) (b f : Byte) : (s.setResultAndFlag x b f).pc = s.pc := rfl
@[simp] theorem setResultAndFlag_i (s : State) (x : Reg) (b f : Byte) : (s.setResultAndFlag x b f).i = s.i := rfl
@[simp] theorem setResultAndFlag_v (s : State) (x : Reg) (b f : Byte) : (s.setResultAndFlag x b f).v = (s.v.set x.toNat b).set VF.toNat f := rfl
@[simp] theorem setResultAndFlag_dt (s : State) (x : Reg) (b f : Byte) : (s.setResultAndFlag x b f).dt = s.dt := rfl
@[simp] theorem setResultAndFlag_st (s : State) (x : Reg) (b f : Byte) : (s.setResultAndFlag x b f).st = s.st := rfl
@[simp] theorem setResultAndFlag_fault (s : State) (x : Reg) (b f : Byte) : (s.setResultAndFlag x b f).fault = s.fault := rfl
@[simp] theorem setResultAndFlag_prevPc (s : State) (x : Reg) (b f : Byte) : (s.setResultAndFlag x b f).prevPc = s.prevPc := rfl
@[simp] theorem setResultAndFlag_report (s : State) (x : Reg) (b f : Byte) : (s.setResultAndFlag x b f).report = s.report := rfl
@[simp] theorem setResultAndFlag_stall (s : State) (x : Reg) (b f : Byte) : (s.setResultAndFlag x b f).stall = s.stall := rfl
@[simp] theorem setResultAndFlag_params (s : State) (x : Reg) (b f : Byte) : (s.setResultAndFlag x b f).params = s.params := rfl

/-! ### setPc -/

@[simp] theorem setPc_mem (s : State) (a : Word) : (s.setPc a).mem = s.mem := rfl
@[simp] theorem setPc_fb (s : State) (a : Word) : (s.setPc a).fb = s.fb := rfl
@[simp] theorem setPc_stack (s : State) (a : Word) : (s.setPc a).stack = s.stack := rfl
@[simp] theorem setPc_pc (s : State) (a : Word) : (s.setPc a).pc = a := rfl
@[simp] theorem setPc_i (s : State) (a : Word) : (s.setPc a).i = s.i := rfl
@[simp] theorem setPc_v (s : State) (a : Word) : (s.setPc a).v = s.v := rfl
@[simp] theorem setPc_dt (s : State) (a : Word) : (s.setPc a).dt = s.dt := rfl
@[simp] theorem setPc_st (s : State) (a : Word) : (s.setPc a).st = s.st := rfl
@[simp] theorem setPc_fault (s : State) (a : Word) : (s.setPc a).fault = s.fault := rfl
@[simp] theorem setPc_prevPc (s : State) (a : Word) : (s.setPc a).prevPc = s.prevPc := rfl
@[simp] theorem setPc_report (s : State) (a : Word) : (s.setPc a).report = s.report := rfl
@[simp] theorem setPc_stall (s : State) (a : Word) : (s.setPc a).stall = s.stall := rfl
@[simp] theorem setPc_params (s : State) (a : Word) : (s.setPc a).params = s.params := rfl

/-! ### setI -/

@[simp] theorem setI_mem (s : State) (a : Word) : (s.setI a).mem = s.mem := rfl
@[simp] theorem setI_fb (s : State) (a : Word) : (s.setI a).fb = s.fb := rfl
@[simp] theorem setI_stack (s : State) (a : Word) : (s.setI a).stack = s.stack := rfl
@[simp] theorem setI_pc (s : State) (a : Word) : (s.setI a).pc = s.pc := rfl
@[simp] theorem setI_i (s : State) (a : Word) : (s.setI a).i = a := rfl
@[simp] theorem setI_v (s : State) (a : Word) : (s.setI a).v = s.v := rfl
@[simp] theorem setI_dt (s : State) (a : Word) : (s.setI a).dt = s.dt := rfl
@[simp] theorem setI_st (s : State) (a : Word) : (s.setI a).st = s.st := rfl
@[simp] theorem setI_fault (s : State) (a : Word) : (s.setI a).fault = s.fault := rfl
@[simp] theorem setI_prevPc (s : State) (a : Word) : (s.setI a).prevPc = s.prevPc := rfl
@[simp] theorem setI_report (s : State) (a : Word) : (s.setI a).report = s.report := rfl
@[simp] theorem setI_stall (s : State) (a : Word) : (s.setI a).stall = s.stall := rfl
@[simp] theorem setI_params (s : State) (a : Word) : (s.setI a).params = s.params := rfl

/-! ### skipIf -/

@[simp] theorem skipIf_mem (s : State) (c : Bool) : (s.skipIf c).mem = s.mem := by cases c <;> rfl
@[simp] theorem skipIf_fb (s : State) (c : Bool) : (s.skipIf c).fb = s.fb := by cases c <;> rfl
@[simp] theorem skipIf_stack (s : State) (c : Bool) : (s.skipIf c).stack = s.stack := by cases c <;> rfl
@[simp] theorem skipIf_pc (s : State) (c : Bool) : (s.skipIf c).pc = if c then s.pc + 2#16 else s.pc := by cases c <;> rfl
@[simp] theorem skipIf_i (s : State) (c : Bool) : (s.skipIf c).i = s.i := by cases c <;> rfl
@[simp] theorem skipIf_v (s : State) (c : Bool) : (s.skipIf c).v = s.v := by cases c <;> rfl
@[simp] theorem skipIf_dt (s : State) (c : Bool) : (s.skipIf c).dt = s.dt := by cases c <;> rfl
@[simp] theorem skipIf_st (s : State) (c : Bool) : (s.skipIf c).st = s.st := by cases c <;> rfl
@[simp] theorem skipIf_fault (s : State) (c : Bool) : (s.skipIf c).fault = s.fault := by cases c <;> rfl
@[simp] theorem skipIf_prevPc (s : State) (c : Bool) : (s.skipIf c).prevPc = s.prevPc := by cases c <;> rfl
@[simp] theorem skipIf_report (s : State) (c : Bool) : (s.skipIf c).report = s.report := by cases c <;> rfl
@[simp] theorem skipIf_stall (s : State) (c : Bool) : (s.skipIf c).stall = s.stall := by cases c <;> rfl
@[simp] theorem skipIf_params (s : State) (c : Bool) : (s.skipIf c).params = s.params := by cases c <;> rfl

/-! ### recordFault -/

@[simp] theorem recordFault_mem (s : State) (r : FaultRecord) : (s.recordFault r).mem = s.mem := rfl
@[simp] theorem recordFault_fb (s : State) (r : FaultRecord) : (s.recordFault r).fb = s.fb := rfl
@[simp] theorem recordFault_stack (s : State) (r : FaultRecord) : (s.recordFault r).stack = s.stack := rfl
@[simp] theorem recordFault_pc (s : State) (r : FaultRecord) : (s.recordFault r).pc = s.pc := rfl
@[simp] theorem recordFault_i (s : State) (r : FaultRecord) : (s.recordFault r).i = s.i := rfl
@[simp] theorem recordFault_v (s : State) (r : FaultRecord) : (s.recordFault r).v = s.v := rfl
@[simp] theorem recordFault_dt (s : State) (r : FaultRecord) : (s.recordFault r).dt = s.dt := rfl
@[simp] theorem recordFault_st (s : State) (r : FaultRecord) : (s.recordFault r).st = s.st := rfl
@[simp] theorem recordFault_fault (s : State) (r : FaultRecord) : (s.recordFault r).fault = some r := rfl
@[simp] theorem recordFault_prevPc (s : State) (r : FaultRecord) : (s.recordFault r).prevPc = s.prevPc := rfl
@[simp] theorem recordFault_report (s : State) (r : FaultRecord) : (s.recordFault r).report = s.report := rfl
@[simp] theorem recordFault_stall (s : State) (r : FaultRecord) : (s.recordFault r).stall = s.stall := rfl
@[simp] theorem recordFault_params (s : State) (r : FaultRecord) : (s.recordFault r).params = s.params := rfl

/-! ### raiseInExecute -/

@[simp] theorem raiseInExecute_mem (s : State) (k : FaultKind) (w : Word) (a : Option Nat) : (s.raiseInExecute k w a).mem = s.mem := rfl
@[simp] theorem raiseInExecute_fb (s : State) (k : FaultKind) (w : Word) (a : Option Nat) : (s.raiseInExecute k w a).fb = s.fb := rfl
@[simp] theorem raiseInExecute_stack (s : State) (k : FaultKind) (w : Word) (a : Option Nat) : (s.raiseInExecute k w a).stack = s.stack := rfl
@[simp] theorem raiseInExecute_pc (s : State) (k : FaultKind) (w : Word) (a : Option Nat) : (s.raiseInExecute k w a).pc = s.pc - 2#16 := rfl
@[simp] theorem raiseInExecute_i (s : State) (k : FaultKind) (w : Word) (a : Option Nat) : (s.raiseInExecute k w a).i = s.i := rfl
@[simp] theorem raiseInExecute_v (s : State) (k : FaultKind) (w : Word) (a : Option Nat) : (s.raiseInExecute k w a).v = s.v := rfl
@[simp] theorem raiseInExecute_dt (s : State) (k : FaultKind) (w : Word) (a : Option Nat) : (s.raiseInExecute k w a).dt = s.dt := rfl
@[simp] theorem raiseInExecute_st (s : State) (k : FaultKind) (w : Word) (a : Option Nat) : (s.raiseInExecute k w a).st = s.st := rfl
@[simp] theorem raiseInExecute_fault (s : State) (k : FaultKind) (w : Word) (a : Option Nat) : (s.raiseInExecute k w a).fault = some ⟨k, some (s.pc - 2#16), some w, a⟩ := rfl
@[simp] theorem raiseInExecute_prevPc (s : State) (k : FaultKind) (w : Word) (a : Option Nat) : (s.raiseInExecute k w a).prevPc = s.prevPc := rfl
@[simp] theorem raiseInExecute_report (s : State) (k : FaultKind) (w : Word) (a : Option Nat) : (s.raiseInExecute k w a).report = s.report := rfl
@[simp] theorem raiseInExecute_stall (s : State) (k : FaultKind) (w : Word) (a : Option Nat) : (s.raiseInExecute k w a).stall = s.stall := rfl
@[simp] theorem raiseInExecute_params (s : State) (k : FaultKind) (w : Word) (a : Option Nat) : (s.raiseInExecute k w a).params = s.params := rfl

/-! ### raiseInFetch -/

@[simp] theorem raiseInFetch_mem (s : State) (a : Nat) : (s.raiseInFetch a).mem = s.mem := rfl
@[simp] theorem raiseInFetch_fb (s : State) (a : Nat) : (s.raiseInFetch a).fb = s.fb := rfl
@[simp] theorem raiseInFetch_stack (s : State) (a : Nat) : (s.raiseInFetch a).stack = s.stack := rfl
@[simp] theorem raiseInFetch_pc (s : State) (a : Nat) : (s.raiseInFetch a).pc = s.pc := rfl
@[simp] theorem raiseInFetch_i (s : State) (a : Nat) : (s.raiseInFetch a).i = s.i := rfl
@[simp] theorem raiseInFetch_v (s : State) (a : Nat) : (s.raiseInFetch a).v = s.v := rfl
@[simp] theorem raiseInFetch_dt (s : State) (a : Nat) : (s.raiseInFetch a).dt = s.dt := rfl
@[simp] theorem raiseInFetch_st (s : State) (a : Nat) : (s.raiseInFetch a).st = s.st := rfl
@[simp] theorem raiseInFetch_fault (s : State) (a : Nat) : (s.raiseInFetch a).fault = some ⟨.outOfBoundsAccess, some s.pc, none, some a⟩ := rfl
@[simp] theorem raiseInFetch_prevPc (s : State) (a : Nat) : (s.raiseInFetch a).prevPc = s.prevPc := rfl
@[simp] theorem raiseInFetch_report (s : State) (a : Nat) : (s.raiseInFetch a).report = none := rfl
@[simp] theorem raiseInFetch_stall (s : State) (a : Nat) : (s.raiseInFetch a).stall = false := rfl
@[simp] theorem raiseInFetch_params (s : State) (a : Nat) : (s.raiseInFetch a).params = s.params := rfl

/-! ### reportUnknown -/

@[simp] theorem reportUnknown_mem (s : State) (w : Word) : (s.reportUnknown w).mem = s.mem := rfl
@[simp] theorem reportUnknown_fb (s : State) (w : Word) : (s.reportUnknown w).fb = s.fb := rfl
@[simp] theorem reportUnknown_stack (s : State) (w : Word) : (s.reportUnknown w).stack = s.stack := rfl
@[simp] theorem reportUnknown_pc (s : State) (w : Word) : (s.reportUnknown w).pc = s.pc := rfl
@[simp] theorem reportUnknown_i (s : State) (w : Word) : (s.reportUnknown w).i = s.i := rfl
@[simp] theorem reportUnknown_v (s : State) (w : Word) : (s.reportUnknown w).v = s.v := rfl
@[simp] theorem reportUnknown_dt (s : State) (w : Word) : (s.reportUnknown w).dt = s.dt := rfl
@[simp] theorem reportUnknown_st (s : State) (w : Word) : (s.reportUnknown w).st = s.st := rfl
@[simp] theorem reportUnknown_fault (s : State) (w : Word) : (s.reportUnknown w).fault = s.fault := rfl
@[simp] theorem reportUnknown_prevPc (s : State) (w : Word) : (s.reportUnknown w).prevPc = s.prevPc := rfl
@[simp] theorem reportUnknown_report (s : State) (w : Word) : (s.reportUnknown w).report = some ⟨s.pc - 2#16, w⟩ := rfl
@[simp] theorem reportUnknown_stall (s : State) (w : Word) : (s.reportUnknown w).stall = s.stall := rfl
@[simp] theorem reportUnknown_params (s : State) (w : Word) : (s.reportUnknown w).params = s.params := rfl

/-! ### beginExecute -/

@[simp] theorem beginExecute_mem (s : State) : (s.beginExecute).mem = s.mem := rfl
@[simp] theorem beginExecute_fb (s : State) : (s.beginExecute).fb = s.fb := rfl
@[simp] theorem beginExecute_stack (s : State) : (s.beginExecute).stack = s.stack := rfl
@[simp] theorem beginExecute_pc (s : State) : (s.beginExecute).pc = s.pc + 2#16 := rfl
@[simp] theorem beginExecute_i (s : State) : (s.beginExecute).i = s.i := rfl
@[simp] theorem beginExecute_v (s : State) : (s.beginExecute).v = s.v := rfl
@[simp] theorem beginExecute_dt (s : State) : (s.beginExecute).dt = s.dt := rfl
@[simp] theorem beginExecute_st (s : State) : (s.beginExecute).st = s.st := rfl
@[simp] theorem beginExecute_fault (s : State) : (s.beginExecute).fault = s.fault := rfl
@[simp] theorem beginExecute_prevPc (s : State) : (s.beginExecute).prevPc = s.prevPc := rfl
@[simp] theorem beginExecute_report (s : State) : (s.beginExecute).report = none := rfl
@[simp] theorem beginExecute_stall (s : State) : (s.beginExecute).stall = false := rfl
@[simp] theorem beginExecute_params (s : State) : (s.beginExecute).params = s.params := rfl

/-! ### latchStall -/

@[simp] theorem latchStall_mem (s : State) (a : Word) : (s.latchStall a).mem = s.mem := rfl
@[simp] theorem latchStall_fb (s : State) (a : Word) : (s.latchStall a).fb = s.fb := rfl
@[simp] theorem latchStall_stack (s : State) (a : Word) : (s.latchStall a).stack = s.stack := rfl
@[simp] theorem latchStall_pc (s : State) (a : Word) : (s.latchStall a).pc = s.pc := rfl
@[simp] theorem latchStall_i (s : State) (a : Word) : (s.latchStall a).i = s.i := rfl
@[simp] theorem latchStall_v (s : State) (a : Word) : (s.latchStall a).v = s.v := rfl
@[simp] theorem latchStall_dt (s : State) (a : Word) : (s.latchStall a).dt = s.dt := rfl
@[simp] theorem latchStall_st (s : State) (a : Word) : (s.latchStall a).st = s.st := rfl
@[simp] theorem latchStall_fault (s : State) (a : Word) : (s.latchStall a).fault = s.fault := rfl
@[simp] theorem latchStall_prevPc (s : State) (a : Word) : (s.latchStall a).prevPc = some a := rfl
@[simp] theorem latchStall_report (s : State) (a : Word) : (s.latchStall a).report = s.report := rfl
@[simp] theorem latchStall_stall (s : State) (a : Word) : (s.latchStall a).stall = (s.prevPc == some a) := rfl
@[simp] theorem latchStall_params (s : State) (a : Word) : (s.latchStall a).params = s.params := rfl

/-! ### writeTimers -/

@[simp] theorem writeTimers_mem (s : State) (d e : Byte) : (s.writeTimers d e).mem = s.mem := rfl
@[simp] theorem writeTimers_fb (s : State) (d e : Byte) : (s.writeTimers d e).fb = s.fb := rfl
@[simp] theorem writeTimers_stack (s : State) (d e : Byte) : (s.writeTimers d e).stack = s.stack := rfl
@[simp] theorem writeTimers_pc (s : State) (d e : Byte) : (s.writeTimers d e).pc = s.pc := rfl
@[simp] theorem writeTimers_i (s : State) (d e : Byte) : (s.writeTimers d e).i = s.i := rfl
@[simp] theorem writeTimers_v (s : State) (d e : Byte) : (s.writeTimers d e).v = s.v := rfl
@[simp] theorem writeTimers_dt (s : State) (d e : Byte) : (s.writeTimers d e).dt = d := rfl
@[simp] theorem writeTimers_st (s : State) (d e : Byte) : (s.writeTimers d e).st = e := rfl
@[simp] theorem writeTimers_fault (s : State) (d e : Byte) : (s.writeTimers d e).fault = s.fault := rfl
@[simp] theorem writeTimers_prevPc (s : State) (d e : Byte) : (s.writeTimers d e).prevPc = s.prevPc := rfl
@[simp] theorem writeTimers_report (s : State) (d e : Byte) : (s.writeTimers d e).report = s.report := rfl
@[simp] theorem writeTimers_stall (s : State) (d e : Byte) : (s.writeTimers d e).stall = s.stall := rfl
@[simp] theorem writeTimers_params (s : State) (d e : Byte) : (s.writeTimers d e).params = s.params := rfl

/-! ### Reading a register after an update -/

/-- A register write is read back, and leaves every other register (R21). -/
theorem getV_setV (s : State) (r q : Reg) (b : Byte) : (s.setV r b).getV q = if q = r then b else s.getV q := by
  simp only [getV, setV, Vector.getElem_set]
  by_cases h : q = r
  · simp [h]
  · have : r.toNat ≠ q.toNat := fun e => h (BitVec.eq_of_toNat_eq e.symm)
    simp [h, this]

@[simp] theorem getV_setV_same (s : State) (r : Reg) (b : Byte) : (s.setV r b).getV r = b := by simp [getV_setV]

/-- With x = F the flag stays; else Vx holds the result and VF the flag (R100). -/
theorem getV_setResultAndFlag (s : State) (x q : Reg) (b f : Byte) :
    (s.setResultAndFlag x b f).getV q = if q = VF then f else if q = x then b else s.getV q := by
  simp only [setResultAndFlag, getV_setV]

@[simp] theorem getV_setPc (s : State) (a : Word) (r : Reg) : (s.setPc a).getV r = s.getV r := rfl
@[simp] theorem getV_setI (s : State) (a : Word) (r : Reg) : (s.setI a).getV r = s.getV r := rfl
@[simp] theorem getV_skipIf (s : State) (c : Bool) (r : Reg) : (s.skipIf c).getV r = s.getV r := by cases c <;> rfl
@[simp] theorem getV_recordFault (s : State) (f : FaultRecord) (r : Reg) : (s.recordFault f).getV r = s.getV r := rfl
@[simp] theorem getV_raiseInExecute (s : State) (k : FaultKind) (w : Word) (a : Option Nat) (r : Reg) :
    (s.raiseInExecute k w a).getV r = s.getV r := rfl
@[simp] theorem getV_raiseInFetch (s : State) (a : Nat) (r : Reg) : (s.raiseInFetch a).getV r = s.getV r := rfl
@[simp] theorem getV_reportUnknown (s : State) (w : Word) (r : Reg) : (s.reportUnknown w).getV r = s.getV r := rfl
@[simp] theorem getV_beginExecute (s : State) (r : Reg) : s.beginExecute.getV r = s.getV r := rfl
@[simp] theorem getV_latchStall (s : State) (a : Word) (r : Reg) : (s.latchStall a).getV r = s.getV r := rfl
@[simp] theorem getV_writeTimers (s : State) (d e : Byte) (r : Reg) : (s.writeTimers d e).getV r = s.getV r := rfl

end Sys2Proof.Machine.State
end

