-- ==== Sys2Proof/Laws/Ops.lean ====
section
/-! SUPPORT. What each shared operation can do, said once, and how "changes only" composes. -/

namespace Sys2Proof.Machine

/-! ### "Changes only" -/

theorem ChangesOnly.refl (ps : List Part) (s : State) : ChangesOnly ps s s := by
  intro p _; cases p <;> rfl

theorem Part.same_trans {p : Part} {s t u : State} (h : p.same s t) (k : p.same t u) : p.same s u := by
  cases p <;> simp_all [Part.same]

theorem ChangesOnly.mono {ps qs : List Part} {s t : State} (h : ChangesOnly ps s t) (hs : ps ⊆ qs) : ChangesOnly qs s t :=
  fun p hp => h p fun hq => hp (hs hq)

theorem ChangesOnly.trans {ps qs : List Part} {s t u : State} (h : ChangesOnly ps s t) (k : ChangesOnly qs t u) :
    ChangesOnly (ps ++ qs) s u := fun p hp =>
  Part.same_trans (h p fun hq => hp (List.mem_append_left _ hq)) (k p fun hq => hp (List.mem_append_right _ hq))

theorem setV_changesOnly (s : State) (r : Reg) (b : Byte) : ChangesOnly [.v r] s (s.setV r b) := by
  intro p hp; cases p <;> simp_all [Part.same, State.getV_setV]

theorem setResultAndFlag_changesOnly (s : State) (x : Reg) (b f : Byte) :
    ChangesOnly [.v x, .v VF] s (s.setResultAndFlag x b f) :=
  (setV_changesOnly s x b).trans (setV_changesOnly _ VF f)

theorem setPc_changesOnly (s : State) (a : Word) : ChangesOnly [.pc] s (s.setPc a) := by
  intro p hp; cases p <;> simp_all [Part.same]

theorem setI_changesOnly (s : State) (a : Word) : ChangesOnly [.i] s (s.setI a) := by
  intro p hp; cases p <;> simp_all [Part.same]

theorem skipIf_changesOnly (s : State) (c : Bool) : ChangesOnly [.pc] s (s.skipIf c) := by
  intro p hp; cases p <;> simp_all [Part.same]

theorem reportUnknown_changesOnly (s : State) (w : Word) : ChangesOnly [.report] s (s.reportUnknown w) := by
  intro p hp; cases p <;> simp_all [Part.same]

theorem raiseInExecute_changesOnly (s : State) (k : FaultKind) (w : Word) (a : Option Nat) :
    ChangesOnly [.pc, .fault] s (s.raiseInExecute k w a) := by
  intro p hp; cases p <;> simp_all [Part.same]

theorem raiseInFetch_changesOnly (s : State) (a : Nat) : ChangesOnly [.fault, .report, .stall] s (s.raiseInFetch a) := by
  intro p hp; cases p <;> simp_all [Part.same]

theorem beginExecute_changesOnly (s : State) : ChangesOnly [.pc, .report, .stall] s s.beginExecute := by
  intro p hp; cases p <;> simp_all [Part.same]

theorem latchStall_changesOnly (s : State) (a : Word) : ChangesOnly [.stall, .prevPc] s (s.latchStall a) := by
  intro p hp; cases p <;> simp_all [Part.same]

/-! ### Call stack (R27) -/

/-- Push fails exactly at capacity; else the entry is the newest and nothing else changes. -/
theorem push_cases (s : State) (a : Word) :
    (s.stack.length = s.params.stackDepth ∧ s.push a = none) ∨
    (s.stack.length ≠ s.params.stackDepth ∧ s.push a = some { s with stack := a :: s.stack }) := by
  by_cases h : s.stack.length = s.params.stackDepth
  · exact .inl ⟨h, if_pos h⟩
  · exact .inr ⟨h, if_neg h⟩

/-- Pop fails exactly on an empty stack; else it takes the newest entry and nothing else changes. -/
theorem pop_cases (s : State) :
    (s.stack = [] ∧ s.pop = none) ∨ (∃ a rest, s.stack = a :: rest ∧ s.pop = some (a, { s with stack := rest })) := by
  cases h : s.stack with
  | nil => exact .inl ⟨rfl, by simp [State.pop, h]⟩
  | cons a rest => exact .inr ⟨a, rest, rfl, by simp [State.pop, h]⟩

/-! ### The host's load (R156, R163) -/

/-- A load that does not fit records its last address and answers it; else the bytes are stored, pc is the offset and the answer is
ok. Nothing else changes, and what `fault` held before does not matter. -/
theorem loadCall_cases (s : State) (bytes : List Byte) (offset : Word) :
    (0 < bytes.length ∧ 4096 < offset.toNat + bytes.length ∧ loadCall s bytes offset =
      (s.recordFault ⟨.outOfBoundsAccess, none, none, some (offset.toNat + bytes.length - 1)⟩,
        .outOfBoundsAccess (offset.toNat + bytes.length - 1))) ∨
    ((bytes = [] ∨ offset.toNat + bytes.length ≤ 4096) ∧ loadCall s bytes offset =
      ({ s with mem := Memory.writeBytes s.mem offset.toNat bytes, pc := offset }, .ok)) := by
  rcases Memory.memWrite_cases s.mem offset.toNat bytes with ⟨h0, h1, e⟩ | ⟨h, e⟩
  · exact .inl ⟨h0, by omega, by simp only [loadCall, e]⟩
  · exact .inr ⟨h, by simp only [loadCall, e]⟩

/-! ### The code of a fault (R140) -/

@[simp] theorem faultCode_of_none (s : State) (h : s.fault = none) : s.faultCode = 0 := by
  simp only [State.faultCode, h, noFaultCode]

@[simp] theorem faultCode_recordFault (s : State) (r : FaultRecord) : (s.recordFault r).faultCode = r.kind.code := rfl

/-! ### Fetch and the end of a step (R81, R85) -/

/-- A fetch succeeds exactly when both bytes lie inside `M`; else it fails at the first byte outside. -/
theorem fetchWord_cases (s : State) :
    (s.pc.toNat < 4095 ∧ ∃ hi lo, Memory.readByte s.mem s.pc.toNat = some hi ∧
      Memory.readByte s.mem (s.pc.toNat + 1) = some lo ∧ s.fetchWord = .ok (wordOfBytes hi lo)) ∨
    (4095 ≤ s.pc.toNat ∧ s.fetchWord = .error (if s.pc.toNat = 4095 then 4096 else s.pc.toNat)) := by
  unfold State.fetchWord
  cases e : Memory.readByte s.mem s.pc.toNat with
  | none =>
    have h := (Memory.readByte_eq_none _ _).1 e
    exact .inr ⟨by omega, by rw [if_neg (by omega)]⟩
  | some hi =>
    have h : ¬ 4096 ≤ s.pc.toNat := fun h => by simp [(Memory.readByte_eq_none _ _).2 h] at e
    cases e' : Memory.readByte s.mem (s.pc.toNat + 1) with
    | none =>
      have h' := (Memory.readByte_eq_none _ _).1 e'
      exact .inr ⟨by omega, by rw [if_pos (by omega), show s.pc.toNat + 1 = 4096 by omega]⟩
    | some lo =>
      have h' : ¬ 4096 ≤ s.pc.toNat + 1 := fun h => by simp [(Memory.readByte_eq_none _ _).2 h] at e'
      exact .inl ⟨by omega, hi, lo, rfl, rfl, rfl⟩

/-- A fetch that succeeds leaves the pc advanced without a wrap. -/
theorem pc_advance_toNat (a : Word) (h : a.toNat < 4095) : (a + 2#16).toNat = a.toNat + 2 := by
  rw [BitVec.toNat_add]; simp; omega

/-- A step that faulted ends as it is (R87). -/
theorem endStep_of_fault (t : State) (a : Word) (h : t.fault ≠ none) : t.endStep a = t := by
  unfold State.endStep; cases e : t.fault with
  | none => exact absurd e h
  | some r => rfl

/-- A step that did not fault latches its starting pc (R85). -/
theorem endStep_of_no_fault (t : State) (a : Word) (h : t.fault = none) : t.endStep a = t.latchStall a := by
  simp only [State.endStep, h]

/-- The end of a step leaves the fault record as it is. -/
@[simp] theorem endStep_fault (t : State) (a : Word) : (t.endStep a).fault = t.fault := by
  unfold State.endStep; cases e : t.fault with
  | none => exact e
  | some r => exact e

/-- The end of a step changes only the stall signal and the stall latch. -/
theorem endStep_changesOnly (t : State) (a : Word) : ChangesOnly [.stall, .prevPc] t (t.endStep a) := by
  unfold State.endStep; cases t.fault with
  | none => exact latchStall_changesOnly t a
  | some r => exact ChangesOnly.refl _ t

/-- The end of a step whose execute phase answered a next state. -/
theorem finishStep_next (a : Word) (t : State) : finishStep a (.next t) = .next (t.endStep a) := rfl

end Sys2Proof.Machine
end

