-- ==== Sys2Proof/Laws/Display.lean ====
section
/-! SUPPORT. Pixels and the draw engine: what the loops of R126 leave in every cell and in the collision latch (spec/44_display.md R126-R131). -/

namespace Sys2Proof.Machine

/-- A pixel written inside the grid is read back; every other pixel is as before. -/
theorem pixel_setPixel (fb : FrameBuffer) (r c r' c' : Nat) (p : Bool) :
    (fb.setPixel r c p).pixel r' c' = if r' = r ∧ c' = c ∧ r < 32 ∧ c < 64 then p else fb.pixel r' c' := by
  by_cases h : r < 32 ∧ c < 64
  · by_cases h' : r' < 32 ∧ c' < 64
    · by_cases hr : r = r'
      · subst hr
        by_cases hc : c = c'
        · subst hc; simp [FrameBuffer.setPixel, FrameBuffer.pixel, h.1, h.2]
        · simp [FrameBuffer.setPixel, FrameBuffer.pixel, h.1, h.2, h'.2, hc, Ne.symm hc]
      · simp [FrameBuffer.setPixel, FrameBuffer.pixel, h.1, h.2, h'.1, h'.2, hr, Ne.symm hr]
    · rw [if_neg (by rintro ⟨rfl, rfl, h''⟩; exact h' h'')]; simp [FrameBuffer.pixel, h']
  · rw [if_neg (by rintro ⟨-, -, h''⟩; exact h h'')]; simp [FrameBuffer.setPixel, h]

/-- Outside the grid a pixel reads false. -/
theorem pixel_outside (fb : FrameBuffer) (r c : Nat) (h : ¬ (r < 32 ∧ c < 64)) : fb.pixel r c = false := by
  simp [FrameBuffer.pixel, h]

/-- Framebuffers with the same pixels are the same. -/
theorem FrameBuffer.ext_of_pixel (f g : FrameBuffer) (h : ∀ r c, r < 32 → c < 64 → f.pixel r c = g.pixel r c) : f = g := by
  apply Vector.ext; intro r hr
  apply Vector.ext; intro c hc
  simpa [FrameBuffer.pixel, hr, hc] using h r c hr hc

/-- Every pixel of the blank frame is 0. -/
@[simp] theorem pixel_blankFrame (r c : Nat) : blankFrame.pixel r c = false := by
  by_cases h : r < 32 ∧ c < 64 <;> simp [FrameBuffer.pixel, blankFrame, h]

/-- One sprite row: the cells of the row from bit `b` on that lie inside the grid are XORed with the sprite bits, every other
cell is as before (R129, R130). -/
theorem pixel_drawBits (r ox : Nat) (row : Byte) (k b : Nat) (acc : FrameBuffer × Bool) (r' c' : Nat) (hr : r < 32) :
    (drawBits r ox row k b acc).1.pixel r' c' =
      (acc.1.pixel r' c' ^^ (decide (r' = r ∧ ox + b ≤ c' ∧ c' < ox + b + k ∧ c' < 64) && spriteBit row (c' - ox))) := by
  induction k generalizing b acc with
  | zero => rw [drawBits, decide_eq_false (by omega)]; simp
  | succ k ih =>
    rw [drawBits]; simp only [fbWidth]
    split_ifs with h
    · rw [decide_eq_false (by omega)]; simp
    · rw [ih]; simp only [drawPixel, pixel_setPixel]
      by_cases e : r' = r ∧ c' = ox + b
      · obtain ⟨rfl, rfl⟩ := e
        rw [if_pos ⟨rfl, rfl, hr, by omega⟩, decide_eq_false (by omega), decide_eq_true (by omega)]
        simp
      · rw [if_neg (by tauto)]
        congr 3
        apply propext; constructor <;> intro h' <;> refine ⟨h'.1, ?_, ?_, h'.2.2.2⟩ <;> omega

/-- One sprite row latches a collision where a 1 bit meets a 1 pixel inside the grid (R130). -/
theorem latch_drawBits (r ox : Nat) (row : Byte) (k b : Nat) (acc : FrameBuffer × Bool) :
    (drawBits r ox row k b acc).2 = true ↔ acc.2 = true ∨
      ∃ c, ox + b ≤ c ∧ c < ox + b + k ∧ c < 64 ∧ acc.1.pixel r c = true ∧ spriteBit row (c - ox) = true := by
  induction k generalizing b acc with
  | zero =>
    rw [drawBits]; constructor
    · exact .inl
    · rintro (h | ⟨c, h1, h2, -⟩)
      · exact h
      · omega
  | succ k ih =>
    rw [drawBits]; simp only [fbWidth]
    split_ifs with h
    · constructor
      · exact .inl
      · rintro (h' | ⟨c, h1, -, h3, -⟩)
        · exact h'
        · omega
    · rw [ih]; simp only [drawPixel, pixel_setPixel, Bool.or_eq_true, Bool.and_eq_true]
      constructor
      · rintro ((h' | ⟨hp, hb⟩) | ⟨c, h1, h2, h3, h4, h5⟩)
        · exact .inl h'
        · exact .inr ⟨ox + b, by omega, by omega, by omega, hp, by rwa [show ox + b - ox = b by omega]⟩
        · rw [if_neg (by omega)] at h4
          exact .inr ⟨c, by omega, by omega, h3, h4, h5⟩
      · rintro (h' | ⟨c, h1, h2, h3, h4, h5⟩)
        · exact .inl (.inl h')
        · by_cases e : c = ox + b
          · subst e; rw [show ox + b - ox = b by omega] at h5; exact .inl (.inr ⟨h4, h5⟩)
          · exact .inr ⟨c, by omega, by omega, h3, by rwa [if_neg (by omega)], h5⟩

/-- The bit of a list of sprite rows that falls on a cell, with origin column `ox` and row `oy`. -/
def rowsBit (rows : List Byte) (ox oy r c : Nat) : Bool :=
  decide (oy ≤ r ∧ r < oy + rows.length ∧ ox ≤ c ∧ c < ox + 8) && spriteBit (rows.getD (r - oy) 0#8) (c - ox)

theorem rowsBit_cons (row : Byte) (rows : List Byte) (ox oy r c : Nat) :
    rowsBit (row :: rows) ox oy r c =
      if r = oy then decide (ox ≤ c ∧ c < ox + 8) && spriteBit row (c - ox) else rowsBit rows ox (oy + 1) r c := by
  unfold rowsBit
  split_ifs with h
  · subst h; simp
  · by_cases h' : oy ≤ r
    · obtain ⟨d, hd⟩ : ∃ d, r - oy = d + 1 := ⟨r - oy - 1, by omega⟩
      rw [hd, show r - (oy + 1) = d by omega, List.getD_cons_succ]
      congr 2; simp only [List.length_cons, eq_iff_iff]; constructor <;> intro h'' <;> refine ⟨?_, ?_, h''.2.2⟩ <;> omega
    · rw [decide_eq_false (by tauto), decide_eq_false (by omega)]; simp

/-- A sprite XORs its bits into the cells inside the grid and leaves every other cell (R126-R130). -/
theorem pixel_drawRows (ox : Nat) (rows : List Byte) (oy : Nat) (acc : FrameBuffer × Bool) (r c : Nat)
    (hr : r < 32) (hc : c < 64) :
    (drawRows ox oy rows acc).1.pixel r c = (acc.1.pixel r c ^^ rowsBit rows ox oy r c) := by
  induction rows generalizing oy acc with
  | nil => rw [drawRows, rowsBit, decide_eq_false (by simp only [List.length_nil]; omega)]; simp
  | cons row rows ih =>
    rw [drawRows]; simp only [fbHeight]
    split_ifs with h
    · rw [rowsBit, decide_eq_false (by omega)]; simp
    · rw [ih, pixel_drawBits _ _ _ _ _ _ _ _ (by omega), rowsBit_cons]
      by_cases e : r = oy
      · subst e
        rw [if_pos rfl, show rowsBit rows ox (r + 1) r c = false by rw [rowsBit, decide_eq_false (by omega)]; rfl]
        simp [hc]
      · rw [if_neg e, decide_eq_false (by tauto)]; simp

/-- A sprite latches a collision exactly where one of its 1 bits falls on a 1 pixel inside the grid (R130). -/
theorem latch_drawRows (ox : Nat) (rows : List Byte) (oy : Nat) (acc : FrameBuffer × Bool) :
    (drawRows ox oy rows acc).2 = true ↔ acc.2 = true ∨
      ∃ r c, r < 32 ∧ c < 64 ∧ acc.1.pixel r c = true ∧ rowsBit rows ox oy r c = true := by
  induction rows generalizing oy acc with
  | nil =>
    rw [drawRows]; constructor
    · exact .inl
    · rintro (h | ⟨r, c, -, -, -, h⟩)
      · exact h
      · simp [rowsBit] at h; omega
  | cons row rows ih =>
    rw [drawRows]; simp only [fbHeight]
    split_ifs with h
    · constructor
      · exact .inl
      · rintro (h' | ⟨r, c, h1, -, -, h4⟩)
        · exact h'
        · simp [rowsBit] at h4; omega
    · rw [ih, latch_drawBits]
      constructor
      · rintro ((h' | ⟨c, h1, h2, h3, h4, h5⟩) | ⟨r, c, h1, h2, h3, h4⟩)
        · exact .inl h'
        · refine .inr ⟨oy, c, by omega, h3, h4, ?_⟩
          rw [rowsBit_cons, if_pos rfl, decide_eq_true (by omega), h5]; rfl
        · have hne : r ≠ oy := by rintro rfl; simp [rowsBit] at h4
          refine .inr ⟨r, c, h1, h2, ?_, by rwa [rowsBit_cons, if_neg hne]⟩
          rw [pixel_drawBits _ _ _ _ _ _ _ _ (by omega), decide_eq_false (by tauto)] at h3; simpa using h3
      · rintro (h' | ⟨r, c, h1, h2, h3, h4⟩)
        · exact .inl (.inl h')
        · rw [rowsBit_cons] at h4
          by_cases e : r = oy
          · subst e; rw [if_pos rfl] at h4
            simp only [Bool.and_eq_true, decide_eq_true_eq] at h4
            exact .inl (.inr ⟨c, by omega, by omega, h2, h3, h4.2⟩)
          · rw [if_neg e] at h4
            refine .inr ⟨r, c, h1, h2, ?_, h4⟩
            rw [pixel_drawBits _ _ _ _ _ _ _ _ (by omega), decide_eq_false (by tauto)]; simpa using h3

/-- What reading the sprite rows can do (R126, R127): all of them, or the lowest failing address. -/
theorem spriteBytes_cases (s : State) (n : Nibble) :
    ((n = 0 ∨ s.i.toNat + n.toNat ≤ 4096) ∧ ∃ rows, spriteBytes s n = .ok rows ∧ rows.length = n.toNat ∧
      ∀ ox oy r c, rowsBit rows ox oy r c = s.spriteAt ox oy n.toNat r c) ∨
    (n ≠ 0 ∧ 4096 < s.i.toNat + n.toNat ∧ spriteBytes s n = .error (max s.i.toNat 4096)) := by
  have n0 : n.toNat = 0 ↔ n = 0 := ⟨fun h => BitVec.eq_of_toNat_eq h, fun h => h ▸ rfl⟩
  rcases Memory.readBytes_cases s.mem s.i.toNat n.toNat with ⟨hin, rows, hrows, hlen, hget⟩ | ⟨h0, hout, herr⟩
  · refine .inl ⟨by rwa [n0] at hin, rows, hrows, hlen, fun ox oy r c => ?_⟩
    unfold rowsBit State.spriteAt; rw [hlen]
    by_cases h : oy ≤ r ∧ r < oy + n.toNat ∧ ox ≤ c ∧ c < ox + 8
    · rw [List.getD_eq_getElem?_getD, hget (r - oy) (by omega)]; rfl
    · simp [decide_eq_false h]
  · exact .inr ⟨fun h => h0 (n0.2 h), hout, herr⟩

end Sys2Proof.Machine
end

