-- ==== Sys2Proof/Laws/PerInstr.lean ====
section
/-! SUPPORT. Statements about every instruction as syntax, one lemma per constructor. EncodesInItsRow: the word of an instruction shows the fixed bits of its own row of spec/opcode_table.json (its "mask" and "match"). -/

namespace Sys2Proof.Laws

/-- The fixed bits of a row: how many low nibbles are free (0, 1 with the class and sub-opcode fixed, or 3 with the class
alone fixed), as the divisor and the modulus that leave the fixed part, and its value. -/
inductive RowBits where
  /-- mask 0xFFFF -/
  | whole (value : Nat)
  /-- mask 0xF000 -/
  | classOnly (cls : Nat)
  /-- mask 0xF00F -/
  | classAndOp (cls op : Nat)
deriving DecidableEq, Repr

/-- The fixed bits of the row of each constructor, from the table's "mask" and "match" columns. -/
def rowBits : Instr → RowBits
  | .cls => .whole 0x00E0
  | .ret => .whole 0x00EE
  | .jp _ => .classOnly 0x1
  | .call _ => .classOnly 0x2
  | .seImm _ _ => .classOnly 0x3
  | .sneImm _ _ => .classOnly 0x4
  | .seReg _ _ => .classOnly 0x5
  | .ldImm _ _ => .classOnly 0x6
  | .addImm _ _ => .classOnly 0x7
  | .ldReg _ _ => .classAndOp 0x8 0x0
  | .or _ _ => .classAndOp 0x8 0x1
  | .and _ _ => .classAndOp 0x8 0x2
  | .xor _ _ => .classAndOp 0x8 0x3
  | .addReg _ _ => .classAndOp 0x8 0x4
  | .sub _ _ => .classAndOp 0x8 0x5
  | .shr _ _ => .classAndOp 0x8 0x6
  | .subn _ _ => .classAndOp 0x8 0x7
  | .shl _ _ => .classAndOp 0x8 0xE
  | .sneReg _ _ => .classOnly 0x9
  | .ldI _ => .classOnly 0xA
  | .ldIV0 _ => .classOnly 0xB
  | .drw _ _ _ => .classOnly 0xD
  | .unhandled0 _ => .classOnly 0x0
  | .unhandled8 _ => .classOnly 0x8
  | .unhandledC _ => .classOnly 0xC
  | .unhandledE _ => .classOnly 0xE
  | .unhandledF _ => .classOnly 0xF

/-- A word shows the fixed bits of a row. -/
def RowBits.holds (r : RowBits) (w : Word) : Prop :=
  match r with
  | .whole value => w.toNat = value
  | .classOnly cls => w.toNat / 4096 = cls
  | .classAndOp cls op => w.toNat / 4096 = cls ∧ w.toNat % 16 = op

/-- The word of an instruction shows the fixed bits of its row. -/
def EncodesInItsRow.Statement (i : Instr) : Prop := (rowBits i).holds (encode i)

theorem holds_nnn (c : BitVec 4) (k : BitVec 12) : (RowBits.classOnly c.toNat).holds (c ++ k) := by
  simp only [RowBits.holds, toNat_class_nnn]; omega

theorem holds_x_nn (c x : BitVec 4) (k : BitVec 8) : (RowBits.classOnly c.toNat).holds (c ++ x ++ k) := by
  simp only [RowBits.holds, toNat_class_x_nn]; omega

theorem holds_x_y (c x y n : BitVec 4) : (RowBits.classOnly c.toNat).holds (c ++ x ++ y ++ n) := by
  simp only [RowBits.holds, toNat_class_x_y_n]; omega

theorem holds_x_y_n (c x y n : BitVec 4) : (RowBits.classAndOp c.toNat n.toNat).holds (c ++ x ++ y ++ n) := by
  simp only [RowBits.holds, toNat_class_x_y_n]; omega

theorem EncodesInItsRow.cls : EncodesInItsRow.Statement .cls := rfl
theorem EncodesInItsRow.ret : EncodesInItsRow.Statement .ret := rfl
theorem EncodesInItsRow.jp (nnn : Addr12) : EncodesInItsRow.Statement (.jp nnn) := holds_nnn 0x1#4 nnn
theorem EncodesInItsRow.call (nnn : Addr12) : EncodesInItsRow.Statement (.call nnn) := holds_nnn 0x2#4 nnn
theorem EncodesInItsRow.seImm (x : Reg) (nn : Byte) : EncodesInItsRow.Statement (.seImm x nn) := holds_x_nn 0x3#4 x nn
theorem EncodesInItsRow.sneImm (x : Reg) (nn : Byte) : EncodesInItsRow.Statement (.sneImm x nn) := holds_x_nn 0x4#4 x nn
theorem EncodesInItsRow.seReg (x y : Reg) : EncodesInItsRow.Statement (.seReg x y) := holds_x_y 0x5#4 x y 0x0#4
theorem EncodesInItsRow.ldImm (x : Reg) (nn : Byte) : EncodesInItsRow.Statement (.ldImm x nn) := holds_x_nn 0x6#4 x nn
theorem EncodesInItsRow.addImm (x : Reg) (nn : Byte) : EncodesInItsRow.Statement (.addImm x nn) := holds_x_nn 0x7#4 x nn
theorem EncodesInItsRow.ldReg (x y : Reg) : EncodesInItsRow.Statement (.ldReg x y) := holds_x_y_n 0x8#4 x y 0x0#4
theorem EncodesInItsRow.or (x y : Reg) : EncodesInItsRow.Statement (.or x y) := holds_x_y_n 0x8#4 x y 0x1#4
theorem EncodesInItsRow.and (x y : Reg) : EncodesInItsRow.Statement (.and x y) := holds_x_y_n 0x8#4 x y 0x2#4
theorem EncodesInItsRow.xor (x y : Reg) : EncodesInItsRow.Statement (.xor x y) := holds_x_y_n 0x8#4 x y 0x3#4
theorem EncodesInItsRow.addReg (x y : Reg) : EncodesInItsRow.Statement (.addReg x y) := holds_x_y_n 0x8#4 x y 0x4#4
theorem EncodesInItsRow.sub (x y : Reg) : EncodesInItsRow.Statement (.sub x y) := holds_x_y_n 0x8#4 x y 0x5#4
theorem EncodesInItsRow.shr (x y : Reg) : EncodesInItsRow.Statement (.shr x y) := holds_x_y_n 0x8#4 x y 0x6#4
theorem EncodesInItsRow.subn (x y : Reg) : EncodesInItsRow.Statement (.subn x y) := holds_x_y_n 0x8#4 x y 0x7#4
theorem EncodesInItsRow.shl (x y : Reg) : EncodesInItsRow.Statement (.shl x y) := holds_x_y_n 0x8#4 x y 0xE#4
theorem EncodesInItsRow.sneReg (x y : Reg) : EncodesInItsRow.Statement (.sneReg x y) := holds_x_y 0x9#4 x y 0x0#4
theorem EncodesInItsRow.ldI (nnn : Addr12) : EncodesInItsRow.Statement (.ldI nnn) := holds_nnn 0xA#4 nnn
theorem EncodesInItsRow.ldIV0 (nnn : Addr12) : EncodesInItsRow.Statement (.ldIV0 nnn) := holds_nnn 0xB#4 nnn
theorem EncodesInItsRow.drw (x y : Reg) (n : Nibble) : EncodesInItsRow.Statement (.drw x y n) := holds_x_y 0xD#4 x y n
theorem EncodesInItsRow.unhandled0 (low : BitVec 12) : EncodesInItsRow.Statement (.unhandled0 low) := holds_nnn 0x0#4 low
theorem EncodesInItsRow.unhandled8 (low : BitVec 12) : EncodesInItsRow.Statement (.unhandled8 low) := holds_nnn 0x8#4 low
theorem EncodesInItsRow.unhandledC (low : BitVec 12) : EncodesInItsRow.Statement (.unhandledC low) := holds_nnn 0xC#4 low
theorem EncodesInItsRow.unhandledE (low : BitVec 12) : EncodesInItsRow.Statement (.unhandledE low) := holds_nnn 0xE#4 low
theorem EncodesInItsRow.unhandledF (low : BitVec 12) : EncodesInItsRow.Statement (.unhandledF low) := holds_nnn 0xF#4 low

end Sys2Proof.Laws
end

