-- ==== Sys2Proof/Laws/Step.lean ====
section
/-! SUPPORT. What the meanings of the three instructions that can fault answer, that every execute phase answers a next state, and what a step can do (spec/40_cycle.md R80-R88). -/

namespace Sys2Proof.Machine

/-- RET takes the newest entry, or raises StackUnderflow on an empty stack (R90). -/
theorem execRet_cases (s : State) :
    (s.stack = [] ∧ execRet s = .next (s.raiseInExecute .stackUnderflow (encode .ret) none)) ∨
    (∃ a rest, s.stack = a :: rest ∧ execRet s = .next ({ s with stack := rest }.setPc a)) := by
  rcases pop_cases s with ⟨h, e⟩ | ⟨a, rest, h, e⟩
  · exact .inl ⟨h, by simp only [execRet, e]⟩
  · exact .inr ⟨a, rest, h, by simp only [execRet, e]⟩

/-- CALL pushes pc and jumps, or raises StackOverflow at capacity (R92). -/
theorem execCall_cases (nnn : Addr12) (s : State) :
    (s.stack.length = s.params.stackDepth ∧
      execCall nnn s = .next (s.raiseInExecute .stackOverflow (encode (.call nnn)) none)) ∨
    (s.stack.length ≠ s.params.stackDepth ∧
      execCall nnn s = .next ({ s with stack := s.pc :: s.stack }.setPc (zext16 nnn))) := by
  rcases push_cases s s.pc with ⟨h, e⟩ | ⟨h, e⟩
  · exact .inl ⟨h, by simp only [execCall, e]⟩
  · exact .inr ⟨h, by simp only [execCall, e]⟩

/-- DRW draws and writes VF, or raises OutOfBoundsAccess at the lowest failing address (R126). -/
theorem execDrw_cases (x y : Reg) (n : Nibble) (s : State) :
    ((n = 0 ∨ s.i.toNat + n.toNat ≤ 4096) ∧ ∃ rows, spriteBytes s n = .ok rows ∧
      (∀ ox oy r c, rowsBit rows ox oy r c = s.spriteAt ox oy n.toNat r c) ∧
      execDrw x y n s = .next
        ({ s with fb := (drawSprite s.fb (spriteColumn s x) (spriteRow s y) rows).1 }.setV VF
          (flagByte (drawSprite s.fb (spriteColumn s x) (spriteRow s y) rows).2))) ∨
    (n ≠ 0 ∧ 4096 < s.i.toNat + n.toNat ∧ execDrw x y n s =
      .next (s.raiseInExecute .outOfBoundsAccess (encode (.drw x y n)) (some (max s.i.toNat 4096)))) := by
  rcases spriteBytes_cases s n with ⟨h, rows, e, -, hb⟩ | ⟨h0, h, e⟩
  · exact .inl ⟨h, rows, e, hb, by simp only [execDrw, e]⟩
  · exact .inr ⟨h0, h, by simp only [execDrw, e]⟩

/-- Every execute phase answers a next state: a fault is one too (R146). -/
theorem exec_answers_next (i : Instr) (s : State) : ∃ t, exec i s = .next t := by
  cases i
  case ret => rcases execRet_cases s with ⟨-, e⟩ | ⟨a, rest, -, e⟩ <;> exact ⟨_, e⟩
  case call nnn => rcases execCall_cases nnn s with ⟨-, e⟩ | ⟨-, e⟩ <;> exact ⟨_, e⟩
  case drw x y n => rcases execDrw_cases x y n s with ⟨-, rows, -, -, e⟩ | ⟨-, -, e⟩ <;> exact ⟨_, e⟩
  all_goals exact ⟨_, rfl⟩

/-- What an execute phase can do to the parts a step keeps for itself: it leaves `fault`, `prev_pc` and the stall signal, or it
is a fault raised through `raiseInExecute`, which changes nothing else (R87, R146). -/
theorem exec_cases (i : Instr) (s t : State) (h : exec i s = .next t) :
    (t.fault = s.fault ∧ t.prevPc = s.prevPc ∧ t.stall = s.stall) ∨ (∃ k w a, t = s.raiseInExecute k w a) := by
  cases i
  case ret =>
    rcases execRet_cases s with ⟨-, e⟩ | ⟨a, rest, -, e⟩ <;> rw [show exec .ret s = execRet s from rfl, e] at h <;> cases h
    · exact .inr ⟨_, _, _, rfl⟩
    · exact .inl ⟨rfl, rfl, rfl⟩
  case call nnn =>
    rcases execCall_cases nnn s with ⟨-, e⟩ | ⟨-, e⟩ <;> rw [show exec (.call nnn) s = execCall nnn s from rfl, e] at h <;> cases h
    · exact .inr ⟨_, _, _, rfl⟩
    · exact .inl ⟨rfl, rfl, rfl⟩
  case drw x y n =>
    rcases execDrw_cases x y n s with ⟨-, rows, -, -, e⟩ | ⟨-, -, e⟩ <;>
      rw [show exec (.drw x y n) s = execDrw x y n s from rfl, e] at h <;> cases h
    · exact .inl ⟨rfl, rfl, rfl⟩
    · exact .inr ⟨_, _, _, rfl⟩
  all_goals (cases h; refine .inl ⟨?_, ?_, ?_⟩ <;> simp)

/-- What a step can do: none after a fault; a fetch fault; or the execute phase of the fetched word's instruction, after which
`prev_pc` is latched unless it faulted. -/
theorem step_cases (s : State) :
    (s.fault ≠ none ∧ step s = .fault .halted) ∨
    (s.fault = none ∧ 4095 ≤ s.pc.toNat ∧
      step s = .next (s.raiseInFetch (if s.pc.toNat = 4095 then 4096 else s.pc.toNat))) ∨
    (s.fault = none ∧ s.pc.toNat < 4095 ∧ ∃ hi lo t, Memory.readByte s.mem s.pc.toNat = some hi ∧
      Memory.readByte s.mem (s.pc.toNat + 1) = some lo ∧
      exec (decodeWord (wordOfBytes hi lo)) s.beginExecute = .next t ∧
      step s = .next (t.endStep s.pc)) := by
  cases hf : s.fault with
  | some r => exact .inl ⟨by simp, by simp [step, hf]⟩
  | none =>
    rcases fetchWord_cases s with ⟨hpc, hi, lo, h1, h2, e⟩ | ⟨hpc, e⟩
    · obtain ⟨t, ht⟩ := exec_answers_next (decodeWord (wordOfBytes hi lo)) s.beginExecute
      exact .inr (.inr ⟨rfl, hpc, hi, lo, t, h1, h2, ht, by simp only [step, hf, e, ht, finishStep_next]⟩)
    · exact .inr (.inl ⟨rfl, hpc, by simp only [step, hf, e]⟩)

/-- A run of one step more is the step and then the run. -/
theorem run_succ (k : Nat) (s t : State) (h : step s = .next t) :
    Sys2Proof.core.run (k + 1) s = Sys2Proof.core.run k t := by
  simp only [Host.Core.run]; rw [show Sys2Proof.core.step s = .next t from h]

/-- Package of an induction over runs: what holds of a state and is kept by every step holds after any number of steps. -/
theorem run_keeps (P : State → Prop) (hstep : ∀ s t, P s → step s = .next t → P t) (k : Nat) (s t : State) (h : P s)
    (hr : Sys2Proof.core.run k s = .next t) : P t := by
  induction k generalizing s with
  | zero => cases hr; exact h
  | succ k ih =>
    simp only [Host.Core.run] at hr
    cases e : step s with
    | next u => rw [show Sys2Proof.core.step s = .next u from e] at hr; exact ih u (hstep s u h e) hr
    | fault r => rw [show Sys2Proof.core.step s = .fault r from e] at hr; cases hr
    | refused r => rw [show Sys2Proof.core.step s = .refused r from e] at hr; cases hr

end Sys2Proof.Machine
end

