-- ==== Sys2Proof/Tests/Slice0.lean ====
section
/-! SUPPORT. Tests of one step each, with expected results from spec/95_test_vectors.md (the vector is named), or worked by hand from the rule named; decode tests with words written out from spec/30_encoding.md R63; the WellFormed smoke tests; and a witness for every statement that has hypotheses. -/

namespace Sys2Proof.Tests

open Sys2Proof Sys2Proof.Machine

/-! ### Helpers -/

/-- The reset state with some registers set. -/
def withV (l : List (Reg × Byte)) : State := l.foldl (fun s p => s.setV p.1 p.2) State.reset

/-- The state with some bytes at an address. -/
def withMem (s : State) (a : Nat) (bs : List Byte) : State := { s with mem := Memory.writeBytes s.mem a bs }

/-- One step from `s` with the word `w` at its pc. -/
def stepOn (s : State) (w : Nat) : Option State :=
  match step (s.withFetchWord 16 w) with
  | .next t => some t
  | .fault _ => none
  | .refused _ => none

/-- One step from `s` as it is. -/
def stepOf (s : State) : Option State :=
  match step s with
  | .next t => some t
  | .fault _ => none
  | .refused _ => none

/-- The sprite of section 2.4 of the test vectors: FF 81 at 0x300, I = 0x300. -/
def spriteState (l : List (Reg × Byte)) : State := (withMem (withV l) 0x300 [0xFF, 0x81]).setI 0x300

/-- A full call stack of 16 entries. -/
def fullStack : State := { State.reset with stack := List.replicate 16 0x202#16 }

/-! ### WellFormed: an ill-formed term for each check -/

theorem test_illformed_unhandled0_cls : (Instr.unhandled0 0x0E0).wellFormed = false := by decide
theorem test_illformed_unhandled0_ret : (Instr.unhandled0 0x0EE).wellFormed = false := by decide
theorem test_illformed_unhandled8_op7 : (Instr.unhandled8 0x127).wellFormed = false := by decide
theorem test_illformed_unhandled8_opE : (Instr.unhandled8 0x12E).wellFormed = false := by decide
theorem test_wellformed_unhandled : (Instr.unhandled0 0x0EF).wellFormed = true ∧ (Instr.unhandled8 0x128).wellFormed = true ∧
    (Instr.unhandled8 0x12F).wellFormed = true := by decide

/-! ### Decode: one word for every constructor, written out from R63 -/

theorem test_decode_class0 : decodeWord 0b0000000011100000#16 = .cls ∧ decodeWord 0b0000000011101110#16 = .ret ∧
    decodeWord 0b0000000100100011#16 = .unhandled0 0x123#12 := by decide
theorem test_decode_jumps : decodeWord 0b0001001000110100#16 = .jp 0x234#12 ∧ decodeWord 0b0010001100000000#16 = .call 0x300#12 := by
  decide
theorem test_decode_skips : decodeWord 0b0011001101000010#16 = .seImm 0x3#4 0x42#8 ∧
    decodeWord 0b0100001101000010#16 = .sneImm 0x3#4 0x42#8 ∧ decodeWord 0b0101000100100111#16 = .seReg 0x1#4 0x2#4 ∧
    decodeWord 0b1001000100101111#16 = .sneReg 0x1#4 0x2#4 := by decide
theorem test_decode_immediates : decodeWord 0b0110101001111111#16 = .ldImm 0xA#4 0x7F#8 ∧
    decodeWord 0b0111000100000001#16 = .addImm 0x1#4 0x01#8 := by decide
theorem test_decode_alu : decodeWord 0b1000000100100000#16 = .ldReg 0x1#4 0x2#4 ∧ decodeWord 0b1000000100100001#16 = .or 0x1#4 0x2#4 ∧
    decodeWord 0b1000000100100010#16 = .and 0x1#4 0x2#4 ∧ decodeWord 0b1000000100100011#16 = .xor 0x1#4 0x2#4 ∧
    decodeWord 0b1000000100100100#16 = .addReg 0x1#4 0x2#4 ∧ decodeWord 0b1000000100100101#16 = .sub 0x1#4 0x2#4 ∧
    decodeWord 0b1000000100100110#16 = .shr 0x1#4 0x2#4 ∧ decodeWord 0b1000000100100111#16 = .subn 0x1#4 0x2#4 ∧
    decodeWord 0b1000000100101110#16 = .shl 0x1#4 0x2#4 ∧ decodeWord 0b1000000100101000#16 = .unhandled8 0x128#12 := by decide
theorem test_decode_index : decodeWord 0b1010000001010000#16 = .ldI 0x050#12 ∧ decodeWord 0b1011000101010000#16 = .ldIV0 0x150#12 := by
  decide
theorem test_decode_draw : decodeWord 0b1101000100100101#16 = .drw 0x1#4 0x2#4 0x5#4 := by decide
theorem test_decode_unhandled : decodeWord 0b1100000011111111#16 = .unhandledC 0x0FF#12 ∧
    decodeWord 0b1110000010011110#16 = .unhandledE 0x09E#12 ∧ decodeWord 0b1111000001010101#16 = .unhandledF 0x055#12 := by decide
theorem test_decode_one_byte_is_refused : decode [0x12#8] = .error .truncated := by decide
theorem test_decode_bytes_big_endian : decode [0xA0#8, 0x50#8] = .ok (.ldI 0x050#12, []) := by decide

/-! ### Loads and the arithmetic unit -/

/-- A1 -/
theorem test_ldImm : (stepOn State.reset 0x6A7F).map (fun t => (t.getV 0xA, t.pc)) = some (0x7F, 0x202) := by decide
/-- A2 -/
theorem test_addImm_wraps : (stepOn (withV [(1, 0xFF), (0xF, 0x55)]) 0x7101).map (fun t => (t.getV 1, t.getV VF)) = some (0x00, 0x55) := by decide
/-- A3 -/
theorem test_addImm_vf : (stepOn (withV [(0xF, 0x10)]) 0x7F05).map (·.getV VF) = some 0x15 := by decide
/-- A5 -/
theorem test_ldReg : (stepOn (withV [(2, 0x33)]) 0x8120).map (·.getV 1) = some 0x33 := by decide
/-- A6 -/
theorem test_or : (stepOn (withV [(1, 0xF0), (2, 0x0F), (0xF, 0x07)]) 0x8121).map (fun t => (t.getV 1, t.getV VF)) = some (0xFF, 0x07) := by decide
/-- A7 -/
theorem test_and : (stepOn (withV [(1, 0xF0), (2, 0x3C)]) 0x8122).map (·.getV 1) = some 0x30 := by decide
/-- A8 -/
theorem test_xor : (stepOn (withV [(1, 0xF0), (2, 0x3C)]) 0x8123).map (·.getV 1) = some 0xCC := by decide
/-- A11 -/
theorem test_addReg_255_is_no_carry : (stepOn (withV [(1, 0x80), (2, 0x7F)]) 0x8124).map (fun t => (t.getV 1, t.getV VF)) = some (0xFF, 0x00) := by decide
/-- A15 -/
theorem test_addReg_vf_alias : (stepOn (withV [(0xF, 0xFF), (2, 0x01)]) 0x8F24).map (·.getV VF) = some 0x01 := by decide
/-- A17 -/
theorem test_sub_borrow : (stepOn (withV [(1, 0x03), (2, 0x05)]) 0x8125).map (fun t => (t.getV 1, t.getV VF)) = some (0xFE, 0x00) := by decide
/-- A22 -/
theorem test_sub_y_is_vf : (stepOn (withV [(1, 0x10), (0xF, 0x01)]) 0x81F5).map (fun t => (t.getV 1, t.getV VF)) = some (0x0F, 0x01) := by decide
/-- A25 -/
theorem test_shr_shifts_vy : (stepOn (withV [(1, 0xFF), (2, 0x02)]) 0x8126).map (fun t => (t.getV 1, t.getV VF)) = some (0x01, 0x00) := by decide
/-- A27 -/
theorem test_shr_vf_alias : (stepOn (withV [(2, 0x02)]) 0x8F26).map (·.getV VF) = some 0x00 := by decide
/-- A29 -/
theorem test_subn : (stepOn (withV [(1, 0x03), (2, 0x05)]) 0x8127).map (fun t => (t.getV 1, t.getV VF)) = some (0x02, 0x01) := by decide
/-- A31 -/
theorem test_subn_equal : (stepOn (withV [(1, 0x44), (2, 0x44)]) 0x8127).map (fun t => (t.getV 1, t.getV VF)) = some (0x00, 0x01) := by decide
/-- A33 -/
theorem test_shl : (stepOn (withV [(2, 0x81)]) 0x812E).map (fun t => (t.getV 1, t.getV VF)) = some (0x02, 0x01) := by decide
/-- A36 -/
theorem test_shl_y_is_vf : (stepOn (withV [(0xF, 0xC0)]) 0x81FE).map (fun t => (t.getV 1, t.getV VF)) = some (0x80, 0x01) := by decide

/-! ### Index register -/

/-- X2 -/
theorem test_ldI : (stepOn State.reset 0xAFFF).map (·.i) = some 0x0FFF := by decide
/-- X4 -/
theorem test_ldIV0_plus : (stepOn (withV [(0, 0xFF)]) 0xBFFF).map (fun t => (t.i, t.pc)) = some (0x10FE, 0x202) := by decide
/-- X5 -/
theorem test_ldIV0_plain : (stepOn { withV [(0, 0xFF)] with params := ⟨16, .iPlain⟩ } 0xBFFF).map (·.i) = some 0x0FFF := by decide

/-! ### Control flow -/

/-- CF2 -/
theorem test_jp_odd : (stepOn State.reset 0x1301).map (·.pc) = some 0x301 := by decide
/-- CF3 -/
theorem test_call : (stepOn State.reset 0x2300).map (fun t => (t.stack, t.pc)) = some ([0x202], 0x300) := by decide
/-- F6 -/
theorem test_call_overflow : (stepOn fullStack 0x2300).map (fun t => (t.fault, t.pc, t.stack.length)) =
    some (some ⟨.stackOverflow, some 0x200, some 0x2300, none⟩, 0x200, 16) := by decide
/-- CF4 -/
theorem test_ret : (stepOn { State.reset with stack := [0x202], pc := 0x300 } 0x00EE).map (fun t => (t.stack, t.pc)) = some ([], 0x202) := by decide
/-- F5 -/
theorem test_ret_underflow : (stepOn State.reset 0x00EE).map (fun t => (t.fault, t.pc)) =
    some (some ⟨.stackUnderflow, some 0x200, some 0x00EE, none⟩, 0x200) := by decide
/-- CF5 -/
theorem test_seImm_skips : (stepOn (withV [(3, 0x42)]) 0x3342).map (·.pc) = some 0x204 := by decide
/-- CF6 -/
theorem test_seImm_goes_on : (stepOn (withV [(3, 0x41)]) 0x3342).map (·.pc) = some 0x202 := by decide
/-- CF7 -/
theorem test_sneImm_skips : (stepOn (withV [(3, 0x41)]) 0x4342).map (·.pc) = some 0x204 := by decide
/-- CF8 -/
theorem test_sneImm_goes_on : (stepOn (withV [(3, 0x42)]) 0x4342).map (·.pc) = some 0x202 := by decide
/-- CF10 -/
theorem test_seReg_goes_on : (stepOn (withV [(1, 7), (2, 8)]) 0x5120).map (·.pc) = some 0x202 := by decide
/-- CF12 -/
theorem test_seReg_ignores_low_nibble : (stepOn (withV [(1, 7), (2, 7)]) 0x5127).map (·.pc) = some 0x204 := by decide
/-- CF14 -/
theorem test_sneReg_same_register : (stepOn (withV [(1, 9)]) 0x9110).map (·.pc) = some 0x202 := by decide
/-- CF15 -/
theorem test_sneReg_ignores_low_nibble : (stepOn (withV [(1, 7), (2, 8)]) 0x912F).map (·.pc) = some 0x204 := by decide

/-! ### Display -/

/-- DR15 -/
theorem test_cls : (stepOn { withV [(0xF, 0x07)] with fb := blankFrame.setPixel 5 5 true } 0x00E0).map
    (fun t => (t.fb.pixel 5 5, t.getV VF)) = some (false, 0x07) := by decide
/-- DR5: clipped at the bottom; VF = 0 -/
theorem test_drw_clips : (stepOn (spriteState [(1, 0x1F)]) 0xD012).map
    (fun t => (t.fb.pixel 31 0, t.fb.pixel 31 7, t.fb.pixel 31 8, t.fb.pixel 0 0, t.getV VF)) =
    some (true, true, false, false, 0x00) := by decide
/-- DR7: bit 4 is pixel 3; a collision clears it and sets VF -/
theorem test_drw_collides : (stepOn ({ withMem State.reset 0x310 [0x10] with fb := blankFrame.setPixel 0 3 true }.setI 0x310) 0xD011).map
    (fun t => (t.fb.pixel 0 3, t.fb.pixel 0 4, t.getV VF)) = some (false, false, 0x01) := by decide

/-! ### UNHANDLED words, the cycle, faults and the host -/

/-- F9 -/
theorem test_unhandled0 : (stepOn State.reset 0x0123).map (fun t => (t.report, t.pc, t.fault)) = some (some ⟨0x200, 0x0123⟩, 0x202, none) := by decide
/-- F10 -/
theorem test_unhandled8 : (stepOn State.reset 0x8128).map (fun t => (t.report, t.pc)) = some (some ⟨0x200, 0x8128⟩, 0x202) := by decide
/-- F11 -/
theorem test_unhandledC : (stepOn State.reset 0xC0FF).map (fun t => (t.report, t.pc)) = some (some ⟨0x200, 0xC0FF⟩, 0x202) := by decide
/-- F11 -/
theorem test_unhandledE : (stepOn State.reset 0xE09E).map (fun t => (t.report, t.pc)) = some (some ⟨0x200, 0xE09E⟩, 0x202) := by decide
/-- F8 -/
theorem test_unhandledF : (stepOn State.reset 0xF00A).map (fun t => (t.report, t.pc)) = some (some ⟨0x200, 0xF00A⟩, 0x202) := by decide
/-- F1 -/
theorem test_fetch_second_byte_fails : (stepOf (State.reset.setPc 0xFFF)).map (fun t => (t.fault, t.pc)) =
    some (some ⟨.outOfBoundsAccess, some 0xFFF, none, some 0x1000⟩, 0xFFF) := by decide
/-- F2 -/
theorem test_fetch_first_byte_fails : (stepOf (State.reset.setPc 0x1000)).map (·.fault) =
    some (some ⟨.outOfBoundsAccess, some 0x1000, none, some 0x1000⟩) := by decide
/-- F12 -/
theorem test_no_step_after_fault : stepOf (State.reset.recordFault ⟨.stackUnderflow, some 0x200, some 0x00EE, none⟩) = none := by decide
/-- F13, the second step: prev_pc is the pc of the first -/
theorem test_stall : (stepOn { State.reset with prevPc := some 0x200 } 0x1200).map (fun t => (t.stall, t.prevPc)) = some (true, some 0x200) := by decide
/-- F7 with the address of R163 -/
theorem test_load_too_long : (State.reset.loadProgram [0x12, 0x00, 0x00] 0xFFE).fault = some ⟨.outOfBoundsAccess, none, none, some 0x1000⟩ := by decide
/-- DR12: the row that clipping would drop still faults -/
theorem test_drw_fault_of_clipped_row : (stepOn ((withV [(1, 0x1F)]).setI 0xFFF) 0xD012).map (fun t => (t.fault, t.pc, t.getV VF)) =
    some (some ⟨.outOfBoundsAccess, some 0x200, some 0xD012, some 0x1000⟩, 0x200, 0x00) := by decide
/-- F14: the first byte of glyph "1" is at 0x055 -/
theorem test_font_window : Memory.readByte State.reset.mem 0x055 = some 0x20 ∧ Memory.readByte State.reset.mem 0x09F = some 0x80 ∧
    Memory.readByte State.reset.mem 0x0A0 = some 0x00 := by decide

/-! ### Witnesses: for every statement with hypotheses, inputs that meet them; where a statement has clauses, one for each, at a
boundary -/

theorem witness_DecodeOfEncodeIsTheInstruction : (Instr.unhandled8 0xFF8#12).wellFormed = true ∧ (Instr.unhandled8 0x00D#12).wellFormed = true ∧
    (Instr.unhandled0 0xFFF#12).wellFormed = true ∧ (Instr.drw 0xF#4 0x0#4 0xF#4).wellFormed = true := by decide
theorem witness_DecodeFollowsTheOpcodeMap : ∀ n ∈ [8#4, 13#4, 15#4], (8 ≤ n.toNat ∧ n.toNat ≤ 13) ∨ n.toNat = 15 := by decide
theorem witness_flag_statements_result_clause : (0x0#4 : Reg) ≠ VF ∧ (0xE#4 : Reg) ≠ VF := by decide
theorem witness_LdIV0LoadsByVariant : State.reset.params.bnnnVariant = .iPlusV0 ∧
    ({ State.reset with params := ⟨1, .iPlain⟩ } : State).params.bnnnVariant = .iPlain := by decide
theorem witness_CallPushesAndJumpsOrOverflows : ({ State.reset with stack := List.replicate 15 0#16 } : State).sp ≠ 16 ∧
    State.reset.params.stackDepth = 16 ∧ fullStack.sp = fullStack.params.stackDepth := by decide
theorem witness_RetPopsIntoPcOrUnderflows : fullStack.stack = 0x202#16 :: List.replicate 15 0x202#16 ∧ State.reset.stack = [] := by decide
theorem witness_DrwXorsTheSpriteInsideTheGrid : ((State.reset.setI 0xFF1).i.toNat + (0xF#4 : Nibble).toNat ≤ 4096) ∧ (0#4 : Nibble) = 0#4 := by decide
theorem witness_DrwOutsideMemoryRecordsTheLowestAddress : (1#4 : Nibble) ≠ 0#4 ∧ 4096 < (State.reset.setI 0x1000).i.toNat + (1#4 : Nibble).toNat ∧
    4096 < (State.reset.setI 0xFF2).i.toNat + (0xF#4 : Nibble).toNat := by decide
theorem witness_DrawingTwiceRestoresTheFramebuffer : ∃ s t : State, s.i.toNat + (0x2#4 : Nibble).toNat ≤ 4096 ∧
    exec (.drw 0x0#4 0x1#4 0x2#4) s = .next t ∧ (t.getV 0x0#4).toNat % 64 = (s.getV 0x0#4).toNat % 64 ∧
    (t.getV 0x1#4).toNat % 32 = (s.getV 0x1#4).toNat % 32 := ⟨spriteState [(0, 0x3C)], _, by decide, rfl, by decide, by decide⟩
theorem witness_DrawingTwice_with_origin_in_VF : ∃ s t : State, s.i.toNat + (0x1#4 : Nibble).toNat ≤ 4096 ∧
    exec (.drw 0xF#4 0xF#4 0x1#4) s = .next t ∧ (t.getV 0xF#4).toNat % 64 = (s.getV 0xF#4).toNat % 64 ∧
    (t.getV 0xF#4).toNat % 32 = (s.getV 0xF#4).toNat % 32 := ⟨spriteState [], _, by decide, rfl, by decide, by decide⟩
theorem witness_StepOfUnhandledWordReportsIt : State.reset.fault = none ∧
    (match (State.reset.withFetchWord 16 0x8128).fetchWord with | .ok v => v == 0x8128#16 | .error _ => false) = true := by decide
theorem witness_StepOfUnhandledWord_regions : ((0x0FFF#16).toNat < 4096 ∧ 0x0FFF#16 ≠ 0x00E0#16 ∧ 0x0FFF#16 ≠ 0x00EE#16) ∧
    ((0x8FFD#16).toNat / 4096 = 8 ∧ (0x8FFD#16).toNat % 16 = 13) ∧ ((0x800F#16).toNat / 4096 = 8 ∧ (0x800F#16).toNat % 16 = 15) ∧
    (0xCFFF#16).toNat / 4096 = 12 ∧ 14 ≤ (0xE000#16).toNat / 4096 ∧ 14 ≤ (0xFFFF#16).toNat / 4096 := by decide
theorem witness_StepRunsTheDecodedInstruction : ∃ t : State, State.reset.fault = none ∧
    Memory.readByte State.reset.mem State.reset.pc.toNat = some 0x00#8 ∧
    Memory.readByte State.reset.mem (State.reset.pc.toNat + 1) = some 0x00#8 ∧
    exec (decodeWord (0x00#8 ++ 0x00#8)) { State.reset with pc := State.reset.pc + 2#16, report := none, stall := false } = .next t :=
  (exec_answers_next _ _).imp fun _ h => ⟨by decide, by decide, by decide, h⟩
theorem witness_StepRunsTheDecodedInstruction_fault : ∃ s t : State, s.fault = none ∧ Memory.readByte s.mem s.pc.toNat = some 0x00#8 ∧
    Memory.readByte s.mem (s.pc.toNat + 1) = some 0xEE#8 ∧
    exec (decodeWord (0x00#8 ++ 0xEE#8)) { s with pc := s.pc + 2#16, report := none, stall := false } = .next t ∧ t.fault ≠ none :=
  ⟨State.reset.withFetchWord 16 0x00EE, _, by decide, by decide, by decide, rfl, by decide⟩
theorem witness_FetchOutsideMemoryRecordsTheFault : (State.reset.setPc 0xFFF).fault = none ∧ 4095 ≤ (State.reset.setPc 0xFFF).pc.toNat ∧
    4095 ≤ (State.reset.setPc 0x1000).pc.toNat := by decide
theorem witness_StepExistsExactlyWithoutAFault : State.reset.fault = none ∧
    (State.reset.recordFault ⟨.stackOverflow, some 0, some 0, none⟩).fault ≠ none := by decide
theorem witness_FaultingStepCommitsOnlyTheRecord : ∃ s t : State, step s = .next t ∧ t.fault ≠ none :=
  ⟨State.reset.setPc 0xFFF, _, rfl, by decide⟩
theorem witness_FaultingStep_in_execute : ∃ s t : State, step s = .next t ∧ t.fault ≠ none :=
  ⟨State.reset.withFetchWord 16 0x00EE, _, rfl, by decide⟩
theorem witness_CompletedStepLatchesItsStartingPc : ∃ t : State, step State.reset = .next t ∧ t.fault = none := ⟨_, rfl, by decide⟩
theorem witness_StepKeepsMemoryTimersAndParameters : ∃ t : State, step State.reset = .next t := ⟨_, rfl⟩
theorem witness_IndexStackAndFrame_index : ∃ t : State, exec (.ldI 0x050#12) State.reset = .next t ∧ t.i ≠ State.reset.i :=
  ⟨_, rfl, by decide⟩
theorem witness_IndexStackAndFrame_stack : ∃ t : State, exec (.call 0x300#12) State.reset = .next t ∧ t.stack ≠ State.reset.stack :=
  ⟨_, rfl, by decide⟩
theorem witness_IndexStackAndFrame_frame : ∃ t : State, exec (.drw 0x0#4 0x1#4 0x1#4) (spriteState []) = .next t ∧ t.fb ≠ (spriteState []).fb :=
  ⟨_, rfl, by decide⟩
theorem witness_FlagHasOnlyItsWriters : ∃ t : State, exec (.sub 0x0#4 0x1#4) State.reset = .next t ∧ t.getV VF ≠ State.reset.getV VF :=
  ⟨_, rfl, by decide⟩
theorem witness_PcChangesInOneOfFourWays : ∃ t u : State, State.reset.fault = none ∧ exec (.seReg 0x1#4 0x1#4) State.reset = .next t ∧
    t.pc = 0x202#16 ∧ exec .ret State.reset = .next u ∧ u.fault ≠ none := ⟨_, _, by decide, rfl, by decide, rfl, by decide⟩
theorem witness_CallThenRetReturnsAfterTheCall : ∃ s : State, s.fault = none ∧ s.sp ≠ s.params.stackDepth ∧
    s.fetchWord = .ok (0x2#4 ++ 0x300#12) ∧ Memory.readByte s.mem 0x300 = some 0x00#8 ∧ Memory.readByte s.mem 0x301 = some 0xEE#8 :=
  ⟨withMem (State.reset.withFetchWord 16 0x2300) 0x300 [0x00, 0xEE], by decide, by decide, rfl, by decide, by decide⟩
theorem witness_SelfJumpRaisesStallFromTheSecondStep : ∃ s : State, s.fault = none ∧ s.pc.toNat = (0x200#12 : Addr12).toNat ∧
    s.fetchWord = .ok (0x1#4 ++ 0x200#12) := ⟨State.reset.withFetchWord 16 0x1200, by decide, by decide, rfl⟩
theorem witness_TimersAreInvisibleToEveryStep : ∃ t : State, step State.reset = .next t ∧
    step (State.reset.recordFault ⟨.stackOverflow, some 0, some 0, none⟩) = .fault .halted := ⟨_, rfl, rfl⟩
theorem witness_StepKeepsTheInvariant : ∃ s t : State, s.Inv ∧ step s = .next t ∧ t.fault = none :=
  ⟨State.reset, _, ⟨by decide, by decide, by decide, by decide, (fun a h => by cases h), by decide, (fun r h => by cases h)⟩, rfl, by decide⟩
theorem witness_BootedMachineSatisfiesTheInvariant : 1 ≤ (⟨1, .iPlain⟩ : Params).stackDepth := by decide
theorem witness_ConstructionInstallsAnyFont : ∀ a ∈ [0x50, 0x9F], a < 4096 ∧ a - 0x50 < 80 ∧ 0x50 ≤ a ∧ ¬ (a < 0x50 ∨ 0xA0 ≤ a) := by decide
theorem witness_ConstructionInstallsAnyFont_outside : ∀ a ∈ [0, 0x4F, 0xA0, 0xFFF], a < 4096 ∧ (a < 0x50 ∨ 0xA0 ≤ a) := by decide
theorem witness_LoadProgramStoresTheImageOrFaults : Memory.wf State.reset.mem = true ∧
    (0xFFE#16 : Word).toNat + ([0x12, 0x00] : List Byte).length ≤ 4096 ∧
    ([0x12, 0x00, 0x00] : List Byte) ≠ [] ∧ 4096 < (0xFFE#16 : Word).toNat + ([0x12, 0x00, 0x00] : List Byte).length := by decide
theorem witness_LoadCall_empty_image_out_of_range : (0x1000#16 : Word).toNat > 4095 ∧
    (loadCall State.reset [] 0x1000).2 = .ok ∧ (State.reset.loadProgram [] 0x1000).pc = 0x1000#16 ∧
    (State.reset.loadProgram [] 0x1000).fault = none := by decide
theorem witness_LoadCall_on_a_faulted_core : ∃ s : State, s.fault ≠ none ∧ (loadCall s [0x12, 0x00] 0xFFE).2 = .ok ∧
    (loadCall s [0x12, 0x00, 0x00] 0xFFE).2 = .outOfBoundsAccess 0x1000 :=
  ⟨State.reset.recordFault ⟨.stackOverflow, some 0, some 0, none⟩, by decide, by decide, by decide⟩
theorem witness_ErrorCodesAreAsListed : State.reset.fault = none ∧ State.reset.faultCode = 0 ∧
    (State.reset.recordFault ⟨.stackUnderflow, some 0, some 0, none⟩).faultCode = 3 := by decide
theorem witness_LoadIsSeenByTheNextFetch : Memory.wf State.reset.mem = true ∧ (0xFFE#16 : Word).toNat + 2 + ([] : List Byte).length ≤ 4096 := by decide
theorem witness_StepCallReturnsOneOfThreeResults : stepCall (State.reset.recordFault ⟨.stackOverflow, some 0, some 0, none⟩) = none ∧
    (stepCall State.reset).map (·.2) = some (.reported ⟨0x200, 0x0000⟩ false) ∧
    (stepCall (State.reset.withFetchWord 16 0x1200)).map (·.2) = some (.ok false) ∧
    (stepCall (State.reset.withFetchWord 16 0x00EE)).map (·.2) = some (.fault ⟨.stackUnderflow, some 0x200, some 0x00EE, none⟩) := by decide

end Sys2Proof.Tests
end

/-! PROOFS. Jumps and skips on an immediate (spec/41_control_flow.md R91, R93, R94): how their words decode, what their execute phase answers, and the statements about them. -/

namespace Sys2Proof.Proofs

open Sys2Proof.Machine Sys2Proof.Laws

/-! ### Decoding (R63) -/

@[simp] theorem decodeWord_jp (nnn : Addr12) : decodeWord (0x1#4 ++ nnn) = .jp nnn := by
  simp [decodeWord]

@[simp] theorem decodeWord_seImm (x : Reg) (nn : Byte) : decodeWord (0x3#4 ++ x ++ nn) = .seImm x nn := by
  simp [decodeWord]

@[simp] theorem decodeWord_sneImm (x : Reg) (nn : Byte) : decodeWord (0x4#4 ++ x ++ nn) = .sneImm x nn := by
  simp [decodeWord]

/-! ### The execute phase (R83) -/

@[simp] theorem zext16_toNat (nnn : Addr12) : (zext16 nnn).toNat = nnn.toNat :=
  BitVec.toNat_setWidth_of_le (by decide)

@[simp] theorem exec_jp (nnn : Addr12) (s : State) : exec (.jp nnn) s = .next (s.setPc (zext16 nnn)) := rfl

@[simp] theorem exec_seImm (x : Reg) (nn : Byte) (s : State) :
    exec (.seImm x nn) s = .next (s.skipIf (s.getV x == nn)) := rfl

@[simp] theorem exec_sneImm (x : Reg) (nn : Byte) (s : State) :
    exec (.sneImm x nn) s = .next (s.skipIf (s.getV x != nn)) := rfl

/-- A skip on equality adds 2 to pc exactly when the operands are equal (R93, R95). -/
theorem skipIf_beq_pc (s : State) (a b : Byte) :
    (s.skipIf (a == b)).pc = if a = b then s.pc + 2#16 else s.pc := by
  rw [State.skipIf_pc]
  by_cases h : a = b <;> simp [h]

/-- A skip on inequality leaves pc exactly when the operands are equal (R94, R96). -/
theorem skipIf_bne_pc (s : State) (a b : Byte) :
    (s.skipIf (a != b)).pc = if a = b then s.pc else s.pc + 2#16 := by
  rw [State.skipIf_pc]
  by_cases h : a = b <;> simp [h]

/-! ### The statements -/

/-- Settles O16: JP writes the zero-extended target to pc, and a write of pc changes pc only. -/
theorem jpSetsPc : Obligations.JpSetsPc := fun nnn s =>
  ⟨decodeWord_jp nnn, _, exec_jp nnn s, zext16_toNat nnn, setPc_changesOnly s (zext16 nnn)⟩

/-- Settles O19: SE Vx, nn is a skip on the equality of Vx and nn. -/
theorem seImmSkipsIfEqual : Obligations.SeImmSkipsIfEqual := fun x nn s =>
  ⟨decodeWord_seImm x nn, _, exec_seImm x nn s, skipIf_beq_pc s (s.getV x) nn, skipIf_changesOnly s (s.getV x == nn)⟩

/-- Settles O20: SNE Vx, nn is a skip on the inequality of Vx and nn. -/
theorem sneImmSkipsIfNotEqual : Obligations.SneImmSkipsIfNotEqual := fun x nn s =>
  ⟨decodeWord_sneImm x nn, _, exec_sneImm x nn s, skipIf_bne_pc s (s.getV x) nn, skipIf_changesOnly s (s.getV x != nn)⟩

end Sys2Proof.Proofs


/-! PROOFS. Loads, sums and differences of the 8-bit unit (spec/42_alu.md R101-R103, R107, R108, R110): how their words decode, what their execute phase answers, what results and flags are as numbers, and the statements about them. -/

namespace Sys2Proof.Proofs

open Sys2Proof.Machine Sys2Proof.Laws

/-! ### Decoding (R63) -/

@[simp] theorem decodeWord_ldImm (x : Reg) (nn : Byte) : decodeWord (0x6#4 ++ x ++ nn) = .ldImm x nn := by
  simp [decodeWord]

@[simp] theorem decodeWord_addImm (x : Reg) (nn : Byte) : decodeWord (0x7#4 ++ x ++ nn) = .addImm x nn := by
  simp [decodeWord]

/-- Class 8 is decided by the second dispatch, whatever its fields are. -/
theorem decodeWord_class8 (x y n : BitVec 4) :
    decodeWord (0x8#4 ++ x ++ y ++ n) = decodeClass8 (0x8#4 ++ x ++ y ++ n) := by
  simp [decodeWord]

@[simp] theorem decodeWord_ldReg (x y : Reg) : decodeWord (0x8#4 ++ x ++ y ++ 0x0#4) = .ldReg x y := by
  simp [decodeWord_class8, decodeClass8]

@[simp] theorem decodeWord_addReg (x y : Reg) : decodeWord (0x8#4 ++ x ++ y ++ 0x4#4) = .addReg x y := by
  simp [decodeWord_class8, decodeClass8]

@[simp] theorem decodeWord_sub (x y : Reg) : decodeWord (0x8#4 ++ x ++ y ++ 0x5#4) = .sub x y := by
  simp [decodeWord_class8, decodeClass8]

@[simp] theorem decodeWord_subn (x y : Reg) : decodeWord (0x8#4 ++ x ++ y ++ 0x7#4) = .subn x y := by
  simp [decodeWord_class8, decodeClass8]

/-! ### The execute phase (R83) -/

@[simp] theorem exec_ldImm (x : Reg) (nn : Byte) (s : State) : exec (.ldImm x nn) s = .next (s.setV x nn) := rfl

@[simp] theorem exec_addImm (x : Reg) (nn : Byte) (s : State) :
    exec (.addImm x nn) s = .next (s.setV x (addResult (s.getV x) nn)) := rfl

@[simp] theorem exec_ldReg (x y : Reg) (s : State) : exec (.ldReg x y) s = .next (s.setV x (s.getV y)) := rfl

@[simp] theorem exec_addReg (x y : Reg) (s : State) :
    exec (.addReg x y) s =
      .next (s.setResultAndFlag x (addResult (s.getV x) (s.getV y)) (addCarry (s.getV x) (s.getV y))) := rfl

@[simp] theorem exec_sub (x y : Reg) (s : State) :
    exec (.sub x y) s =
      .next (s.setResultAndFlag x (subResult (s.getV x) (s.getV y)) (subNoBorrow (s.getV x) (s.getV y))) := rfl

@[simp] theorem exec_subn (x y : Reg) (s : State) :
    exec (.subn x y) s =
      .next (s.setResultAndFlag x (subResult (s.getV y) (s.getV x)) (subNoBorrow (s.getV y) (s.getV x))) := rfl

/-! ### Results and flags as numbers (R10, R107, R108) -/

@[simp] theorem trunc8_toNat (n : Nat) : (trunc8 n).toNat = n % 256 := BitVec.toNat_ofNat n 8

theorem addResult_toNat (a b : Byte) : (addResult a b).toNat = (a.toNat + b.toNat) % 256 := trunc8_toNat _

theorem subResult_toNat (a b : Byte) : (subResult a b).toNat = (a.toNat + 256 - b.toNat) % 256 := trunc8_toNat _

@[simp] theorem flagByte_decide (p : Prop) [Decidable p] : flagByte (decide p) = if p then 1#8 else 0#8 := by
  simp [flagByte]

theorem addCarry_eq (a b : Byte) : addCarry a b = if a.toNat + b.toNat > 255 then 1#8 else 0#8 := flagByte_decide _

theorem subNoBorrow_eq (a b : Byte) : subNoBorrow a b = if a.toNat ≥ b.toNat then 1#8 else 0#8 := flagByte_decide _

/-! ### The two registers of an operation with a flag (R100) -/

/-- The flag is written last, so it is read back from VF also with x = F. -/
@[simp] theorem getV_VF_setResultAndFlag (s : State) (x : Reg) (result flag : Byte) :
    (s.setResultAndFlag x result flag).getV VF = flag := by
  rw [State.getV_setResultAndFlag, if_pos rfl]

/-- The result is read back from Vx, unless the flag has overwritten it. -/
theorem getV_setResultAndFlag_of_ne_VF (s : State) {x : Reg} (result flag : Byte) (hx : x ≠ VF) :
    (s.setResultAndFlag x result flag).getV x = result := by
  rw [State.getV_setResultAndFlag, if_neg hx, if_pos rfl]

/-! ### The statements -/

/-- Settles O5: LD Vx, nn is one register write, and a register write changes that register only. -/
theorem ldImmWritesTheImmediate : Obligations.LdImmWritesTheImmediate := fun x nn s =>
  ⟨decodeWord_ldImm x nn, _, exec_ldImm x nn s, State.getV_setV_same s x nn, setV_changesOnly s x nn⟩

/-- Settles O6: ADD Vx, nn writes the truncated sum to Vx and no flag. -/
theorem addImmWrapsAndRecordsNoCarry : Obligations.AddImmWrapsAndRecordsNoCarry := fun x nn s =>
  ⟨decodeWord_addImm x nn, _, exec_addImm x nn s,
    by rw [State.getV_setV_same, addResult_toNat], setV_changesOnly s x _⟩

/-- Settles O7: LD Vx, Vy is one register write, of the old Vy. -/
theorem ldRegCopiesTheRegister : Obligations.LdRegCopiesTheRegister := fun x y s =>
  ⟨decodeWord_ldReg x y, _, exec_ldReg x y s, State.getV_setV_same s x _, setV_changesOnly s x _⟩

/-- Settles O9: ADD Vx, Vy writes the truncated sum, then the carry, both computed from the old registers. -/
theorem addRegWritesSumAndCarry : Obligations.AddRegWritesSumAndCarry := fun x y s =>
  ⟨decodeWord_addReg x y, _, exec_addReg x y s,
    fun hx => by rw [getV_setResultAndFlag_of_ne_VF s _ _ hx, addResult_toNat],
    by rw [getV_VF_setResultAndFlag, addCarry_eq],
    setResultAndFlag_changesOnly s x _ _⟩

/-- Settles O10: SUB Vx, Vy writes Vx - Vy, then NOT borrow, both computed from the old registers. -/
theorem subWritesDifferenceAndNoBorrow : Obligations.SubWritesDifferenceAndNoBorrow := fun x y s =>
  ⟨decodeWord_sub x y, _, exec_sub x y s,
    fun hx => by rw [getV_setResultAndFlag_of_ne_VF s _ _ hx, subResult_toNat],
    by rw [getV_VF_setResultAndFlag, subNoBorrow_eq],
    setResultAndFlag_changesOnly s x _ _⟩

/-- Settles O11: SUBN Vx, Vy writes Vy - Vx, then NOT borrow, both computed from the old registers. -/
theorem subnWritesReverseDifferenceAndNoBorrow : Obligations.SubnWritesReverseDifferenceAndNoBorrow := fun x y s =>
  ⟨decodeWord_subn x y, _, exec_subn x y s,
    fun hx => by rw [getV_setResultAndFlag_of_ne_VF s _ _ hx, subResult_toNat],
    by rw [getV_VF_setResultAndFlag, subNoBorrow_eq],
    setResultAndFlag_changesOnly s x _ _⟩

end Sys2Proof.Proofs


/-! PROOFS. The index register loaded from an address (spec/43_index.md R120): how the word decodes, what its execute phase answers, and the statement about it. -/

namespace Sys2Proof.Proofs

open Sys2Proof.Machine

/-! ### Decoding (R63) -/

@[simp] theorem decodeWord_ldI (nnn : Addr12) : decodeWord (0xA#4 ++ nnn) = .ldI nnn := by
  simp [decodeWord]

/-! ### The execute phase (R83) -/

@[simp] theorem exec_ldI (nnn : Addr12) (s : State) : exec (.ldI nnn) s = .next (s.setI (zext16 nnn)) := rfl

/-! ### The statement -/

/-- Settles O14: LD I, nnn writes the zero-extended address to I, and a write of I changes I only. -/
theorem ldILoadsTheAddress : Obligations.LdILoadsTheAddress := fun nnn s =>
  ⟨decodeWord_ldI nnn, _, exec_ldI nnn s, zext16_toNat nnn, setI_changesOnly s (zext16 nnn)⟩

end Sys2Proof.Proofs


/-! PROOFS. The clear of the framebuffer (spec/44_display.md R125): how the word decodes, what its execute phase answers, and the statement about it. -/

namespace Sys2Proof.Proofs

open Sys2Proof.Machine

/-! ### Decoding (R63) -/

@[simp] theorem decodeWord_cls : decodeWord 0x00E0#16 = .cls := by decide

/-! ### The execute phase (R83) -/

@[simp] theorem exec_cls (s : State) : exec .cls s = .next { s with fb := blankFrame } := rfl

/-- A new framebuffer is a change of `fb` only: every other part, VF included, holds the same. -/
theorem setFb_changesOnly (s : State) (f : FrameBuffer) : ChangesOnly [.fb] s { s with fb := f } := by
  intro p hp
  cases p
  case fb => exact absurd (List.mem_singleton_self _) hp
  all_goals rfl

/-! ### The statement -/

/-- Settles O22: CLS puts in the blank frame, whose pixels are all 0, and a new framebuffer changes `fb` only. -/
theorem clsClearsEveryPixel : Obligations.ClsClearsEveryPixel :=
  ⟨decodeWord_cls, fun s => ⟨_, exec_cls s, fun r c _ _ => pixel_blankFrame r c, setFb_changesOnly s blankFrame⟩⟩

end Sys2Proof.Proofs



/-! PROOFS. Decoding and encoding against each other (spec/30_encoding.md R60-R68): the rest of the opcode map, the decoder after the encoder, the encoder after the decoder, and the statements about them. -/

namespace Sys2Proof.Proofs

open Sys2Proof.Laws

/-! ### The rest of the opcode map (R63) -/

theorem decodeWord_class0 (low : BitVec 12) : decodeWord (0x0#4 ++ low) =
    if low = 0x0E0#12 then .cls else if low = 0x0EE#12 then .ret else .unhandled0 low := by
  have hword (k : BitVec 12) : (0x0#4 ++ low : Word) = 0x0#4 ++ k ↔ low = k :=
    ⟨fun h => by rw [← fieldNNN_class_nnn 0x0#4 low, h, fieldNNN_class_nnn], fun h => h ▸ rfl⟩
  have hcls := hword 0x0E0#12
  have hret := hword 0x0EE#12
  simp only [decodeWord, fieldClass_class_nnn, decodeClass0, fieldNNN_class_nnn]
  exact if_congr hcls rfl (if_congr hret rfl rfl)

@[simp] theorem decodeWord_ret : decodeWord 0x00EE#16 = .ret := by decide

@[simp] theorem decodeWord_call (nnn : Addr12) : decodeWord (0x2#4 ++ nnn) = .call nnn := by
  simp [decodeWord]

@[simp] theorem decodeWord_seReg (x y n : BitVec 4) : decodeWord (0x5#4 ++ x ++ y ++ n) = .seReg x y := by
  simp [decodeWord]

@[simp] theorem decodeWord_or (x y : Reg) : decodeWord (0x8#4 ++ x ++ y ++ 0x1#4) = .or x y := by
  simp [decodeWord_class8, decodeClass8]

@[simp] theorem decodeWord_and (x y : Reg) : decodeWord (0x8#4 ++ x ++ y ++ 0x2#4) = .and x y := by
  simp [decodeWord_class8, decodeClass8]

@[simp] theorem decodeWord_xor (x y : Reg) : decodeWord (0x8#4 ++ x ++ y ++ 0x3#4) = .xor x y := by
  simp [decodeWord_class8, decodeClass8]

@[simp] theorem decodeWord_shr (x y : Reg) : decodeWord (0x8#4 ++ x ++ y ++ 0x6#4) = .shr x y := by
  simp [decodeWord_class8, decodeClass8]

@[simp] theorem decodeWord_shl (x y : Reg) : decodeWord (0x8#4 ++ x ++ y ++ 0xE#4) = .shl x y := by
  simp [decodeWord_class8, decodeClass8]

@[simp] theorem decodeWord_sneReg (x y n : BitVec 4) : decodeWord (0x9#4 ++ x ++ y ++ n) = .sneReg x y := by
  simp [decodeWord]

@[simp] theorem decodeWord_ldIV0 (nnn : Addr12) : decodeWord (0xB#4 ++ nnn) = .ldIV0 nnn := by
  simp [decodeWord]

@[simp] theorem decodeWord_drw (x y : Reg) (n : Nibble) : decodeWord (0xD#4 ++ x ++ y ++ n) = .drw x y n := by
  simp [decodeWord]

@[simp] theorem decodeWord_unhandledC (low : BitVec 12) : decodeWord (0xC#4 ++ low) = .unhandledC low := by
  simp [decodeWord]

@[simp] theorem decodeWord_unhandledE (low : BitVec 12) : decodeWord (0xE#4 ++ low) = .unhandledE low := by
  simp [decodeWord]

@[simp] theorem decodeWord_unhandledF (low : BitVec 12) : decodeWord (0xF#4 ++ low) = .unhandledF low := by
  simp [decodeWord]

/-! ### The second dispatch of class 8 (R63, R65) -/

theorem isAluOp_iff (n : Nibble) : isAluOp n = true ↔ n.toNat ≤ 7 ∨ n.toNat = 14 := by
  revert n; decide

/-- Class 8 is UNHANDLED exactly at the low nibbles that select no operation. -/
theorem decodeClass8_of_not_isAluOp (w : Word) (h : ¬ isAluOp (fieldN w) = true) :
    decodeClass8 w = .unhandled8 (fieldNNN w) := by
  rw [isAluOp_iff] at h
  unfold decodeClass8
  split
  case h_10 => rfl
  all_goals omega

theorem decodeWord_unhandled8 (low : BitVec 12) (h : ¬ isAluOp (low.extractLsb' 0 4) = true) :
    decodeWord (0x8#4 ++ low) = .unhandled8 low := by
  have hN : fieldN (0x8#4 ++ low) = low.extractLsb' 0 4 := by
    rw [← fieldNNN_low_nibble, fieldNNN_class_nnn]
  calc decodeWord (0x8#4 ++ low) = decodeClass8 (0x8#4 ++ low) := by simp [decodeWord]
    _ = .unhandled8 (fieldNNN (0x8#4 ++ low)) := decodeClass8_of_not_isAluOp _ (hN ▸ h)
    _ = .unhandled8 low := by rw [fieldNNN_class_nnn]

/-- The same with the fields of the word written out. -/
theorem decodeWord_unhandled8_x_y_n (x y n : BitVec 4) (h : ¬ isAluOp n = true) :
    decodeWord (0x8#4 ++ x ++ y ++ n) = .unhandled8 (x ++ y ++ n) := by
  have hlow : fieldNNN (0x8#4 ++ x ++ y ++ n) = x ++ y ++ n := by
    apply BitVec.eq_of_toNat_eq
    rw [fieldNNN_toNat, toNat_class_x_y_n, append_toNat (x ++ y) n, append_toNat]; omega
  rw [decodeWord_class8, decodeClass8_of_not_isAluOp _ (by rwa [fieldN_class_x_y_n]), hlow]

/-! ### The decoder after the encoder (R67) -/

/-- The word of a well-formed instruction decodes to it. -/
theorem decodeWord_encode (i : Instr) (h : i.wellFormed = true) : decodeWord (encode i) = i := by
  cases i
  case unhandled0 low =>
    simp only [Instr.wellFormed, Bool.and_eq_true, bne_iff_ne] at h
    obtain ⟨hcls, hret⟩ := h
    rw [encode, decodeWord_class0, if_neg hcls, if_neg hret]
  case unhandled8 low => exact decodeWord_unhandled8 low (by simpa [Instr.wellFormed] using h)
  all_goals simp [encode]

/-! ### The encoder after the decoder (R66, R67) -/

theorem decodeClass0_wellFormed (w : Word) (h : fieldClass w = 0x0#4) : (decodeClass0 w).wellFormed = true := by
  have hw : 0x0#4 ++ fieldNNN w = w := h ▸ word_eq_class_nnn w
  unfold decodeClass0
  split_ifs with hcls hret
  · rfl
  · rfl
  · simp only [Instr.wellFormed, Bool.and_eq_true, bne_iff_ne]
    exact ⟨fun e => hcls (by rw [← hw, e]; rfl), fun e => hret (by rw [← hw, e]; rfl)⟩

theorem decodeClass8_wellFormed (w : Word) : (decodeClass8 w).wellFormed = true := by
  by_cases h : isAluOp (fieldN w) = true
  · rw [isAluOp_iff] at h
    unfold decodeClass8
    split
    case h_10 => simp only [imp_false] at *; omega
    all_goals rfl
  · rw [decodeClass8_of_not_isAluOp w h, Instr.wellFormed, fieldNNN_low_nibble]
    simpa using h

/-- Every word decodes to a well-formed instruction. -/
theorem decodeWord_wellFormed (w : Word) : (decodeWord w).wellFormed = true := by
  unfold decodeWord
  split
  case h_1 h => exact decodeClass0_wellFormed w (BitVec.eq_of_toNat_eq h)
  case h_9 => exact decodeClass8_wellFormed w
  all_goals rfl

/-! A word of class 0 or 8 loses no bit by its own dispatch. -/

theorem encode_decodeClass0 (w : Word) (h : fieldClass w = 0x0#4) : encode (decodeClass0 w) = w := by
  have hw : 0x0#4 ++ fieldNNN w = w := h ▸ word_eq_class_nnn w
  unfold decodeClass0
  split_ifs with hcls hret
  · exact hcls.symm
  · exact hret.symm
  · exact hw

theorem encode_decodeClass8 (w : Word) (h : fieldClass w = 0x8#4) : encode (decodeClass8 w) = w := by
  have hnnn : 0x8#4 ++ fieldNNN w = w := h ▸ word_eq_class_nnn w
  have hn {k : Nat} (e : (fieldN w).toNat = k) : 0x8#4 ++ fieldX w ++ fieldY w ++ BitVec.ofNat 4 k = w := by
    rw [← e, BitVec.ofNat_toNat, BitVec.setWidth_eq, ← h, word_eq_class_x_y_n]
  unfold decodeClass8
  split
  case h_10 => exact hnnn
  all_goals next e => exact hn e

/-- Encoding a decoded word gives it back, but for the low nibble that classes 5 and 9 do not examine: every field the
decoder takes out of the word goes back to its own place. -/
theorem encode_decodeWord_toNat (w : Word) : (encode (decodeWord w)).toNat =
    if w.toNat / 4096 = 5 ∨ w.toNat / 4096 = 9 then w.toNat - w.toNat % 16 else w.toNat := by
  unfold decodeWord
  split
  case h_1 h =>
    rw [encode_decodeClass0 w (BitVec.eq_of_toNat_eq h), if_neg (by rw [← fieldClass_toNat, h]; decide)]
  case h_9 h =>
    rw [encode_decodeClass8 w (BitVec.eq_of_toNat_eq h), if_neg (by rw [← fieldClass_toNat, h]; decide)]
  all_goals
    simp only [fieldClass_toNat, imp_false] at *
    simp only [encode, toNat_class_nnn, toNat_class_x_nn, toNat_class_x_y_n, fieldNNN_toNat, fieldX_toNat, fieldY_toNat,
      fieldN_toNat, fieldNN_toNat, BitVec.toNat_ofNat]
    split_ifs <;> omega

/-! ### The statements -/

/-- Settles O1: the two bytes make up the word again, and the word of a well-formed instruction decodes to it. -/
theorem decodeOfEncodeIsTheInstruction : Obligations.DecodeOfEncodeIsTheInstruction := fun i rest h => by
  rw [encodeBytes, List.cons_append, List.singleton_append, decode_cons_cons, wordOfBytes_highByte_lowByte,
    decodeWord_encode i h]

/-- Settles O2: decoding is total into well-formed instructions, and loses only what classes 5 and 9 ignore. -/
theorem encodeOfDecodeKeepsEveryExaminedBit : Obligations.EncodeOfDecodeKeepsEveryExaminedBit := fun w =>
  ⟨decodeWord_wellFormed w, encode_decodeWord_toNat w⟩

/-- Settles O3: the opcode map, one decoding lemma per class and, in class 8, per low nibble. -/
theorem decodeFollowsTheOpcodeMap : Obligations.DecodeFollowsTheOpcodeMap := fun x y n nn low =>
  ⟨decodeWord_class0 low, decodeWord_jp low, decodeWord_call low, decodeWord_seImm x nn, decodeWord_sneImm x nn,
    decodeWord_seReg x y n, decodeWord_ldImm x nn, decodeWord_addImm x nn, decodeWord_ldReg x y, decodeWord_or x y,
    decodeWord_and x y, decodeWord_xor x y, decodeWord_addReg x y, decodeWord_sub x y, decodeWord_shr x y,
    decodeWord_subn x y, decodeWord_shl x y,
    fun h => decodeWord_unhandled8_x_y_n x y n (by rw [isAluOp_iff]; omega),
    decodeWord_sneReg x y n, decodeWord_ldI low, decodeWord_ldIV0 low, decodeWord_unhandledC low, decodeWord_drw x y n,
    decodeWord_unhandledE low, decodeWord_unhandledF low⟩

/-- Settles O4: closed words and byte strings, so the decoder is run on each. -/
theorem sampleWordsDecode : Obligations.SampleWordsDecode := by
  unfold Obligations.SampleWordsDecode
  decide

end Sys2Proof.Proofs



/-! PROOFS. The bitwise operations and the shifts of the 8-bit unit (spec/42_alu.md R104-R106, R109, R111): what their execute phase answers, the shifts bit by bit, and the statements about them. -/

namespace Sys2Proof.Proofs

open Sys2Proof.Machine

/-! ### The execute phase (R83) -/

@[simp] theorem exec_or (x y : Reg) (s : State) : exec (.or x y) s = .next (s.setV x (s.getV x ||| s.getV y)) := rfl

@[simp] theorem exec_and (x y : Reg) (s : State) : exec (.and x y) s = .next (s.setV x (s.getV x &&& s.getV y)) := rfl

@[simp] theorem exec_xor (x y : Reg) (s : State) : exec (.xor x y) s = .next (s.setV x (s.getV x ^^^ s.getV y)) := rfl

@[simp] theorem exec_shr (x y : Reg) (s : State) :
    exec (.shr x y) s = .next (s.setResultAndFlag x (shrResult (s.getV y)) (shrFlag (s.getV y))) := rfl

@[simp] theorem exec_shl (x y : Reg) (s : State) :
    exec (.shl x y) s = .next (s.setResultAndFlag x (shlResult (s.getV y)) (shlFlag (s.getV y))) := rfl

/-! ### The shifts bit by bit (R109, R111) -/

theorem shrResult_eq (a : Byte) : shrResult a = a >>> 1 := by
  apply BitVec.eq_of_toNat_eq
  rw [shrResult, trunc8_toNat, BitVec.toNat_ushiftRight, Nat.shiftRight_eq_div_pow]; omega

theorem shlResult_eq (a : Byte) : shlResult a = a <<< 1 := by
  apply BitVec.eq_of_toNat_eq
  rw [shlResult, trunc8_toNat, BitVec.toNat_shiftLeft, Nat.shiftLeft_eq]

theorem getLsbD_shrResult (a : Byte) (b : Nat) : (shrResult a).getLsbD b = a.getLsbD (b + 1) := by
  rw [shrResult_eq, BitVec.getLsbD_ushiftRight, Nat.add_comm]

theorem getLsbD_zero_shlResult (a : Byte) : (shlResult a).getLsbD 0 = false := by
  simp [shlResult_eq]

theorem getLsbD_succ_shlResult (a : Byte) {b : Nat} (hb : b < 7) : (shlResult a).getLsbD (b + 1) = a.getLsbD b := by
  simp only [shlResult_eq, BitVec.getLsbD_shiftLeft, decide_eq_true (show b + 1 < 8 by omega),
    decide_eq_false (show ¬ b + 1 < 1 by omega), Nat.add_sub_cancel, Bool.not_false, Bool.true_and]

theorem shrFlag_eq (a : Byte) : shrFlag a = if a.toNat % 2 = 1 then 1#8 else 0#8 := by
  rw [shrFlag, BitVec.getLsbD, Nat.testBit_zero, flagByte_decide]

theorem shlFlag_eq (a : Byte) : shlFlag a = if a.toNat ≥ 128 then 1#8 else 0#8 := by
  have hmsb : a.getLsbD 7 = decide (a.toNat ≥ 128) := BitVec.msb_eq_decide a
  rw [shlFlag, hmsb, flagByte_decide]

/-! ### The statements -/

/-- Settles O8: each operation is one register write, and bits are combined place by place. -/
theorem logicOpsCombineBitsAndLeaveTheFlag : Obligations.LogicOpsCombineBitsAndLeaveTheFlag := fun x y s =>
  ⟨⟨_, exec_or x y s, setV_changesOnly s x _, fun b _ => by rw [State.getV_setV_same, BitVec.getLsbD_or]⟩,
    ⟨_, exec_and x y s, setV_changesOnly s x _, fun b _ => by rw [State.getV_setV_same, BitVec.getLsbD_and]⟩,
    ⟨_, exec_xor x y s, setV_changesOnly s x _, fun b _ => by rw [State.getV_setV_same, BitVec.getLsbD_xor]⟩⟩

/-- Settles O12: SHR writes Vy shifted right to Vx, then the bit moved out. -/
theorem shrShiftsVyRightIntoVx : Obligations.ShrShiftsVyRightIntoVx := fun x y s =>
  ⟨_, exec_shr x y s, setResultAndFlag_changesOnly s x _ _,
    fun hx => by
      rw [getV_setResultAndFlag_of_ne_VF s _ _ hx]
      exact ⟨(getLsbD_shrResult _ 7).trans (BitVec.getLsbD_of_ge _ 8 le_rfl), fun b _ => getLsbD_shrResult _ b⟩,
    by rw [getV_VF_setResultAndFlag, shrFlag_eq]⟩

/-- Settles O13: SHL writes Vy shifted left to Vx, then the bit moved out. -/
theorem shlShiftsVyLeftIntoVx : Obligations.ShlShiftsVyLeftIntoVx := fun x y s =>
  ⟨_, exec_shl x y s, setResultAndFlag_changesOnly s x _ _,
    fun hx => by
      rw [getV_setResultAndFlag_of_ne_VF s _ _ hx]
      exact ⟨getLsbD_zero_shlResult _, fun b hb => getLsbD_succ_shlResult _ hb⟩,
    by rw [getV_VF_setResultAndFlag, shlFlag_eq]⟩

end Sys2Proof.Proofs



/-! PROOFS. The variants of Bnnn, CALL, RET, the skips on registers and the UNHANDLED rows (spec/43_index.md R121; 41_control_flow.md R90, R92, R95, R96; 40_cycle.md R84): what their execute phase answers, and the statements about them. -/

namespace Sys2Proof.Proofs

open Sys2Proof.Machine

/-! ### The execute phase (R83) -/

@[simp] theorem exec_ldIV0 (nnn : Addr12) (s : State) :
    exec (.ldIV0 nnn) s = .next (s.setI (bnnnIndex s.params.bnnnVariant nnn (s.getV 0x0#4))) := rfl

@[simp] theorem exec_seReg (x y : Reg) (s : State) :
    exec (.seReg x y) s = .next (s.skipIf (s.getV x == s.getV y)) := rfl

@[simp] theorem exec_sneReg (x y : Reg) (s : State) :
    exec (.sneReg x y) s = .next (s.skipIf (s.getV x != s.getV y)) := rfl

theorem exec_call (nnn : Addr12) (s : State) : exec (.call nnn) s = execCall nnn s := rfl

theorem exec_ret (s : State) : exec .ret s = execRet s := rfl

@[simp] theorem exec_unhandled0 (low : BitVec 12) (s : State) :
    exec (.unhandled0 low) s = .next (s.reportUnknown (encode (.unhandled0 low))) := rfl

@[simp] theorem exec_unhandled8 (low : BitVec 12) (s : State) :
    exec (.unhandled8 low) s = .next (s.reportUnknown (encode (.unhandled8 low))) := rfl

@[simp] theorem exec_unhandledC (low : BitVec 12) (s : State) :
    exec (.unhandledC low) s = .next (s.reportUnknown (encode (.unhandledC low))) := rfl

@[simp] theorem exec_unhandledE (low : BitVec 12) (s : State) :
    exec (.unhandledE low) s = .next (s.reportUnknown (encode (.unhandledE low))) := rfl

@[simp] theorem exec_unhandledF (low : BitVec 12) (s : State) :
    exec (.unhandledF low) s = .next (s.reportUnknown (encode (.unhandledF low))) := rfl

/-! ### The index of Bnnn (R121, decision D8) -/

/-- A 12-bit address and a byte add up without a wrap in 16 bits. -/
theorem bnnnIndex_iPlusV0_toNat (nnn : Addr12) (v0 : Byte) :
    (bnnnIndex .iPlusV0 nnn v0).toNat = nnn.toNat + v0.toNat := by
  have h0 : (v0.setWidth 16).toNat = v0.toNat := BitVec.toNat_setWidth_of_le (by decide)
  rw [bnnnIndex, BitVec.toNat_add, zext16_toNat, h0]; omega

theorem bnnnIndex_iPlain_toNat (nnn : Addr12) (v0 : Byte) : (bnnnIndex .iPlain nnn v0).toNat = nnn.toNat :=
  zext16_toNat nnn

/-! ### The call stack (R26, R27) -/

/-- A new stack is a change of `stack` only. -/
theorem setStack_changesOnly (s : State) (l : List Word) : ChangesOnly [.stack] s { s with stack := l } := by
  intro p hp
  cases p
  case stack => exact absurd (List.mem_singleton_self _) hp
  all_goals rfl

/-- CALL and RET write the stack, then pc, and nothing else. -/
theorem setStack_setPc_changesOnly (s : State) (l : List Word) (a : Word) :
    ChangesOnly [.stack, .pc] s ({ s with stack := l }.setPc a) :=
  (setStack_changesOnly s l).trans (setPc_changesOnly _ a)

/-- A fault raised by the execute phase, with its two parts named in the order of the record. -/
theorem raiseInExecute_changesOnly_fault_pc (s : State) (k : FaultKind) (w : Word) (a : Option Nat) :
    ChangesOnly [.fault, .pc] s (s.raiseInExecute k w a) :=
  (raiseInExecute_changesOnly s k w a).mono (by simp)

/-! ### CALL and RET, case by case (R90, R92) -/

theorem exec_call_of_room {s : State} (h : s.sp ≠ s.params.stackDepth) (nnn : Addr12) :
    exec (.call nnn) s = .next ({ s with stack := s.pc :: s.stack }.setPc (zext16 nnn)) := by
  rcases execCall_cases nnn s with ⟨hfull, -⟩ | ⟨-, e⟩
  · exact absurd hfull h
  · exact e

theorem exec_call_of_full {s : State} (h : s.sp = s.params.stackDepth) (nnn : Addr12) :
    exec (.call nnn) s = .next (s.raiseInExecute .stackOverflow (encode (.call nnn)) none) := by
  rcases execCall_cases nnn s with ⟨-, e⟩ | ⟨hroom, -⟩
  · exact e
  · exact absurd h hroom

theorem exec_ret_of_cons {s : State} {a : Word} {rest : List Word} (h : s.stack = a :: rest) :
    exec .ret s = .next ({ s with stack := rest }.setPc a) := by
  rcases execRet_cases s with ⟨hnil, -⟩ | ⟨b, l, hcons, e⟩
  · simp [hnil] at h
  · obtain ⟨rfl, rfl⟩ := List.cons.inj (hcons.symm.trans h)
    exact e

theorem exec_ret_of_nil {s : State} (h : s.stack = []) :
    exec .ret s = .next (s.raiseInExecute .stackUnderflow (encode .ret) none) := by
  rcases execRet_cases s with ⟨-, e⟩ | ⟨b, l, hcons, -⟩
  · exact e
  · simp [hcons] at h

/-! ### The statements -/

/-- Settles O15: Bnnn is one write of I, of the index its variant gives. -/
theorem ldIV0LoadsByVariant : Obligations.LdIV0LoadsByVariant := fun nnn s =>
  ⟨_, exec_ldIV0 nnn s, setI_changesOnly s _,
    fun h => by rw [State.setI_i, h, bnnnIndex_iPlusV0_toNat],
    fun h => by rw [State.setI_i, h, bnnnIndex_iPlain_toNat]⟩

/-- Settles O17: the two cases of CALL, by whether there is room on the stack. -/
theorem callPushesAndJumpsOrOverflows : Obligations.CallPushesAndJumpsOrOverflows := fun nnn s =>
  ⟨decodeWord_call nnn,
    fun hroom => ⟨_, exec_call_of_room hroom nnn, rfl, zext16_toNat nnn, setStack_setPc_changesOnly s _ _⟩,
    fun hfull => ⟨_, exec_call_of_full hfull nnn, rfl, rfl, raiseInExecute_changesOnly_fault_pc s _ _ _⟩⟩

/-- Settles O18: the two cases of RET, by whether there is an entry on the stack. -/
theorem retPopsIntoPcOrUnderflows : Obligations.RetPopsIntoPcOrUnderflows :=
  ⟨decodeWord_ret, fun s =>
    ⟨fun a rest hs => ⟨_, exec_ret_of_cons hs, rfl, rfl, setStack_setPc_changesOnly s rest a⟩,
      fun hs => ⟨_, exec_ret_of_nil hs, rfl, rfl, raiseInExecute_changesOnly_fault_pc s _ _ _⟩⟩⟩

/-- Settles O21: both are skips, on the equality and on the inequality of two registers. -/
theorem registerSkipsCompareRegisters : Obligations.RegisterSkipsCompareRegisters := fun x y n s =>
  ⟨⟨decodeWord_seReg x y n, _, exec_seReg x y s, skipIf_beq_pc s _ _, skipIf_changesOnly s _⟩,
    ⟨decodeWord_sneReg x y n, _, exec_sneReg x y s, skipIf_bne_pc s _ _, skipIf_changesOnly s _⟩⟩

/-- Settles O27: each row makes the report of its own word, and a report changes `report` only. -/
theorem unhandledRowsReportAndChangeNothingElse : Obligations.UnhandledRowsReportAndChangeNothingElse := fun low s =>
  ⟨⟨_, exec_unhandled0 low s, rfl, reportUnknown_changesOnly s _⟩,
    ⟨_, exec_unhandled8 low s, rfl, reportUnknown_changesOnly s _⟩,
    ⟨_, exec_unhandledC low s, rfl, reportUnknown_changesOnly s _⟩,
    ⟨_, exec_unhandledE low s, rfl, reportUnknown_changesOnly s _⟩,
    ⟨_, exec_unhandledF low s, rfl, reportUnknown_changesOnly s _⟩⟩

end Sys2Proof.Proofs



/-! PROOFS. The draw (spec/44_display.md R126-R132, spec/95_test_vectors.md W4): what DRW leaves in every cell and in VF, and the statements about it. -/

namespace Sys2Proof.Proofs

open Sys2Proof.Machine

theorem exec_drw (x y : Reg) (n : Nibble) (s : State) : exec (.drw x y n) s = execDrw x y n s := rfl

/-- A draw of no rows reads and draws nothing, and the latch stays clear (R132, decision D14). -/
@[simp] theorem exec_drw_zero (x y : Reg) (s : State) : exec (.drw x y 0#4) s = .next (s.setV VF 0#8) := rfl

theorem flagByte_zero_or_one (b : Bool) : flagByte b = 0#8 ∨ flagByte b = 1#8 := by cases b <;> simp [flagByte]

@[simp] theorem flagByte_eq_one (b : Bool) : flagByte b = 1#8 ↔ b = true := by cases b <;> simp [flagByte]

/-- What a draw leaves in a cell of the grid. -/
theorem pixel_drawSprite (fb : FrameBuffer) (ox oy : Nat) (rows : List Byte) (r c : Nat) (hr : r < 32) (hc : c < 64) :
    (drawSprite fb ox oy rows).1.pixel r c = (fb.pixel r c ^^ rowsBit rows ox oy r c) :=
  pixel_drawRows ox rows oy (fb, false) r c hr hc

/-- When a draw latches a collision. -/
theorem latch_drawSprite (fb : FrameBuffer) (ox oy : Nat) (rows : List Byte) :
    (drawSprite fb ox oy rows).2 = true ↔
      ∃ r c, r < 32 ∧ c < 64 ∧ fb.pixel r c = true ∧ rowsBit rows ox oy r c = true :=
  (latch_drawRows ox rows oy (fb, false)).trans (by simp)

/-- A new framebuffer and a write of VF change nothing else. -/
theorem setFb_setV_changesOnly (s : State) (f : FrameBuffer) (b : Byte) :
    ChangesOnly [.fb, .v VF] s ({ s with fb := f }.setV VF b) :=
  (setFb_changesOnly s f).trans (setV_changesOnly _ VF b)

/-- The sprite is read from memory at I, so it is the same wherever those hold the same. -/
theorem spriteAt_of_changesOnly {s t : State} (h : ChangesOnly [.fb, .v VF] s t) (ox oy n r c : Nat) :
    t.spriteAt ox oy n r c = s.spriteAt ox oy n r c := by
  have hi : t.i = s.i := h .i (by simp)
  have hmem (a : Nat) : Memory.readByte t.mem a = Memory.readByte s.mem a := h (.mem a) (by simp)
  rw [State.spriteAt, hmem, hi, State.spriteAt]

/-! ### The statements -/

/-- Settles O23: inside memory DRW runs the draw engine, whose cells and latch the sprite's bits describe. -/
theorem drwXorsTheSpriteInsideTheGrid : Obligations.DrwXorsTheSpriteInsideTheGrid := fun x y n s hin => by
  rcases execDrw_cases x y n s with ⟨-, rows, -, hbit, e⟩ | ⟨hn, hout, -⟩
  · refine ⟨_, e, fun r c hr hc => ?_, ?_, ?_, setFb_setV_changesOnly s _ _⟩
    · exact (pixel_drawSprite _ _ _ rows r c hr hc).trans (by rw [hbit]; rfl)
    · rw [State.getV_setV_same]; exact flagByte_zero_or_one _
    · rw [State.getV_setV_same, flagByte_eq_one, latch_drawSprite]
      simp only [hbit]; rfl
  · exact absurd hin (by rintro (h | h); exacts [hn h, by omega])

/-- Settles O24: outside memory DRW raises the fault of its lowest failing row. -/
theorem drwOutsideMemoryRecordsTheLowestAddress : Obligations.DrwOutsideMemoryRecordsTheLowestAddress :=
  fun x y n s hn hout => by
    rcases execDrw_cases x y n s with ⟨hin, -⟩ | ⟨-, -, e⟩
    · exact absurd hin (by rintro (h | h); exacts [hn h, by omega])
    · exact ⟨_, e, rfl, rfl, raiseInExecute_changesOnly_fault_pc s _ _ _⟩

/-- Settles O25: with no rows only the clear latch is written. -/
theorem drwOfZeroRowsOnlyClearsTheFlag : Obligations.DrwOfZeroRowsOnlyClearsTheFlag := fun x y s =>
  ⟨_, exec_drw_zero x y s, State.getV_setV_same s VF _, setV_changesOnly s VF _⟩

/-- Settles O26: the two draws XOR the same bit into each cell, and the second meets a 1 where the first met a 0. -/
theorem drawingTwiceRestoresTheFramebuffer : Obligations.DrawingTwiceRestoresTheFramebuffer :=
  fun x y n s t hin hst hx hy => by
    obtain ⟨t', hst', hpix, -, -, hframe⟩ := drwXorsTheSpriteInsideTheGrid x y n s hin
    obtain rfl : t' = t := Host.Outcome.next.inj (hst'.symm.trans hst)
    have hi : t'.i = s.i := hframe .i (by simp)
    obtain ⟨u, htu, hpix', -, hflag, -⟩ := drwXorsTheSpriteInsideTheGrid x y n t' (by rwa [hi])
    simp only [hx, hy, spriteAt_of_changesOnly hframe] at hpix' hflag
    refine ⟨u, htu, FrameBuffer.ext_of_pixel _ _ fun r c hr hc => ?_, hflag.trans ?_⟩
    · rw [hpix' r c hr hc, hpix r c hr hc, Bool.xor_assoc, Bool.xor_self, Bool.xor_false]
    · refine exists_congr fun r => exists_congr fun c => and_congr_right fun hr => and_congr_right fun hc =>
        and_congr_left fun hbit => ?_
      rw [hpix r c hr hc, hbit]; simp

end Sys2Proof.Proofs



/-! PROOFS. What an execute phase may write (spec/10_state.md R21-R29, 41_control_flow.md section 5): the parts each instruction writes when it completes, the fault it may raise instead, and the statements over every instruction that follow. -/

namespace Sys2Proof.Proofs

open Sys2Proof.Machine

/-! ### The parts each instruction writes -/

/-- The parts of the state the execute phase of an instruction writes when it raises no fault. -/
def partsWritten : Instr → List Part
  | .cls => [.fb]
  | .ret | .call _ => [.stack, .pc]
  | .jp _ | .seImm _ _ | .sneImm _ _ | .seReg _ _ | .sneReg _ _ => [.pc]
  | .ldImm x _ | .addImm x _ | .ldReg x _ | .or x _ | .and x _ | .xor x _ => [.v x]
  | .addReg x _ | .sub x _ | .shr x _ | .subn x _ | .shl x _ => [.v x, .v VF]
  | .ldI _ | .ldIV0 _ => [.i]
  | .drw _ _ _ => [.fb, .v VF]
  | .unhandled0 _ | .unhandled8 _ | .unhandledC _ | .unhandledE _ | .unhandledF _ => [.report]

/-- The instructions whose execute phase can raise a fault (R141-R143). -/
def CanFault (i : Instr) : Prop := i = .ret ∨ (∃ nnn, i = .call nnn) ∨ ∃ x y n, i = .drw x y n

/-- Every execute phase completes, writing only its own parts and no memory; or it is one of the three that can fault and it
raises a well-formed fault, which changes nothing else. -/
theorem exec_frame {i : Instr} {s t : State} (h : exec i s = .next t) :
    (t.mem = s.mem ∧ ChangesOnly (partsWritten i) s t) ∨
    (CanFault i ∧ ∃ k w a, t = s.raiseInExecute k w a ∧ FaultRecord.wf ⟨k, some (s.pc - 2#16), some w, a⟩) := by
  cases i
  case ret =>
    rcases execRet_cases s with ⟨-, e⟩ | ⟨a, rest, -, e⟩ <;> rw [exec_ret, e] at h <;> cases h
    · exact .inr ⟨.inl rfl, _, _, _, rfl, rfl⟩
    · exact .inl ⟨rfl, setStack_setPc_changesOnly s _ _⟩
  case call nnn =>
    rcases execCall_cases nnn s with ⟨-, e⟩ | ⟨-, e⟩ <;> rw [exec_call, e] at h <;> cases h
    · exact .inr ⟨.inr (.inl ⟨nnn, rfl⟩), _, _, _, rfl, rfl⟩
    · exact .inl ⟨rfl, setStack_setPc_changesOnly s _ _⟩
  case drw x y n =>
    rcases execDrw_cases x y n s with ⟨-, rows, -, -, e⟩ | ⟨-, -, e⟩ <;> rw [exec_drw, e] at h <;> cases h
    · exact .inl ⟨rfl, setFb_setV_changesOnly s _ _⟩
    · exact .inr ⟨.inr (.inr ⟨x, y, n, rfl⟩), _, _, _, rfl, le_max_right s.i.toNat 4096⟩
  case cls => cases h; exact .inl ⟨rfl, setFb_changesOnly s _⟩
  case jp => cases h; exact .inl ⟨rfl, setPc_changesOnly s _⟩
  case seImm | sneImm | seReg | sneReg => cases h; exact .inl ⟨State.skipIf_mem s _, skipIf_changesOnly s _⟩
  case ldImm | addImm | ldReg | or | and | xor => cases h; exact .inl ⟨rfl, setV_changesOnly s _ _⟩
  case addReg | sub | shr | subn | shl => cases h; exact .inl ⟨rfl, setResultAndFlag_changesOnly s _ _ _⟩
  case ldI | ldIV0 => cases h; exact .inl ⟨rfl, setI_changesOnly s _⟩
  case unhandled0 | unhandled8 | unhandledC | unhandledE | unhandledF =>
    cases h; exact .inl ⟨rfl, reportUnknown_changesOnly s _⟩

/-- An execute phase leaves every part that the instruction does not write, but for pc and the record of a fault. -/
theorem exec_same {i : Instr} {s t : State} (h : exec i s = .next t) (p : Part) (hp : p ∉ partsWritten i)
    (hpc : p ≠ .pc) (hfault : p ≠ .fault) : p.same s t := by
  rcases exec_frame h with ⟨-, hframe⟩ | ⟨-, k, w, a, rfl, -⟩
  · exact hframe p hp
  · exact raiseInExecute_changesOnly s k w a p (by simp [hpc, hfault])

/-- No execute phase touches memory, as a list too. -/
theorem exec_mem {i : Instr} {s t : State} (h : exec i s = .next t) : t.mem = s.mem := by
  rcases exec_frame h with ⟨hmem, -⟩ | ⟨-, k, w, a, rfl, -⟩
  · exact hmem
  · rfl

/-- The parts that no instruction writes. -/
theorem not_mem_partsWritten (i : Instr) :
    .fault ∉ partsWritten i ∧ .dt ∉ partsWritten i ∧ .st ∉ partsWritten i ∧ .prevPc ∉ partsWritten i ∧
      .params ∉ partsWritten i := by
  cases i <;> simp [partsWritten]

/-- No execute phase touches the timers, the stall latch or the parameters. -/
theorem exec_keeps {i : Instr} {s t : State} (h : exec i s = .next t) :
    t.dt = s.dt ∧ t.st = s.st ∧ t.prevPc = s.prevPc ∧ t.params = s.params := by
  obtain ⟨-, hdt, hst, hprev, hparams⟩ := not_mem_partsWritten i
  exact ⟨exec_same h .dt hdt nofun nofun, exec_same h .st hst nofun nofun, exec_same h .prevPc hprev nofun nofun,
    exec_same h .params hparams nofun nofun⟩

/-- An execute phase keeps the fault record, or is one that can fault and raises a well-formed one. -/
theorem exec_fault_cases {i : Instr} {s t : State} (h : exec i s = .next t) :
    t.fault = s.fault ∨
    (CanFault i ∧ ∃ k w a, t = s.raiseInExecute k w a ∧ FaultRecord.wf ⟨k, some (s.pc - 2#16), some w, a⟩) :=
  (exec_frame h).imp_left fun ⟨_, hframe⟩ =>
    have ⟨hfault, _⟩ := not_mem_partsWritten i
    hframe .fault hfault

/-! ### The writers of single parts (R22, R25, R26, R29) -/

/-- A part, other than pc and the fault record, that an execute phase changes is one its instruction writes. -/
theorem mem_partsWritten_of_change {i : Instr} {s t : State} (h : exec i s = .next t) (p : Part) (hpc : p ≠ .pc)
    (hfault : p ≠ .fault) (hne : ¬ p.same s t) : p ∈ partsWritten i :=
  not_imp_comm.1 (fun hp => exec_same h p hp hpc hfault) hne

theorem writer_of_i {i : Instr} (h : .i ∈ partsWritten i) : ∃ nnn, i = .ldI nnn ∨ i = .ldIV0 nnn := by
  cases i <;> simp_all [partsWritten]

theorem writer_of_stack {i : Instr} (h : .stack ∈ partsWritten i) : i = .ret ∨ ∃ nnn, i = .call nnn := by
  cases i <;> simp_all [partsWritten]

theorem writer_of_fb {i : Instr} (h : .fb ∈ partsWritten i) : i = .cls ∨ ∃ x y n, i = .drw x y n := by
  cases i <;> simp_all [partsWritten]

theorem writer_of_flag {i : Instr} (h : .v VF ∈ partsWritten i) :
    (∃ x y, i = .addReg x y ∨ i = .sub x y ∨ i = .subn x y ∨ i = .shr x y ∨ i = .shl x y ∨ ∃ n, i = .drw x y n) ∨
    (∃ nn, i = .ldImm VF nn ∨ i = .addImm VF nn) ∨
    (∃ y, i = .ldReg VF y ∨ i = .or VF y ∨ i = .and VF y ∨ i = .xor VF y) := by
  cases i <;> simp_all [partsWritten]

/-- Settles O35: what an execute phase changes it writes, and the writers of each part stand in `partsWritten`. -/
theorem indexStackAndFrameHaveOnlyTheirWriters : Obligations.IndexStackAndFrameHaveOnlyTheirWriters := fun _ _ _ h =>
  ⟨fun hne => writer_of_i (mem_partsWritten_of_change h .i nofun nofun hne),
    fun hne => writer_of_stack (mem_partsWritten_of_change h .stack nofun nofun hne),
    fun hne => writer_of_fb (mem_partsWritten_of_change h .fb nofun nofun hne)⟩

/-- Settles O36: VF is among the parts written by the flag writers, and by an ordinary write exactly with x = F. -/
theorem flagHasOnlyItsWriters : Obligations.FlagHasOnlyItsWriters := fun _ _ _ h hne =>
  writer_of_flag (mem_partsWritten_of_change h (.v VF) nofun nofun hne)

/-! ### pc (R24) -/

/-- A skip leaves pc, or moves it past one instruction. -/
theorem skipIf_pc_cases (s : State) (c : Bool) : (s.skipIf c).pc = s.pc ∨ (s.skipIf c).pc = s.pc + 2#16 := by
  cases c
  · exact .inl rfl
  · exact .inr rfl

/-- Settles O37: by instruction; the three that can fault by their own cases. -/
theorem pcChangesInOneOfFourWays : Obligations.PcChangesInOneOfFourWays := by
  intro i s t hf h
  cases i
  case ret =>
    rcases execRet_cases s with ⟨-, e⟩ | ⟨a, rest, hs, e⟩ <;> rw [exec_ret, e] at h <;> cases h
    · exact .inr ⟨nofun, rfl, .inl rfl⟩
    · exact .inl ⟨hf, .inr (.inr (.inr ⟨rfl, hs⟩))⟩
  case call nnn =>
    rcases execCall_cases nnn s with ⟨-, e⟩ | ⟨-, e⟩ <;> rw [exec_call, e] at h <;> cases h
    · exact .inr ⟨nofun, rfl, .inr (.inl ⟨nnn, rfl⟩)⟩
    · exact .inl ⟨hf, .inr (.inr (.inl ⟨nnn, .inr rfl, zext16_toNat nnn⟩))⟩
  case drw x y n =>
    rcases execDrw_cases x y n s with ⟨-, rows, -, -, e⟩ | ⟨-, -, e⟩ <;> rw [exec_drw, e] at h <;> cases h
    · exact .inl ⟨hf, .inl rfl⟩
    · exact .inr ⟨nofun, rfl, .inr (.inr ⟨x, y, n, rfl⟩)⟩
  case jp nnn => cases h; exact .inl ⟨hf, .inr (.inr (.inl ⟨nnn, .inl rfl, zext16_toNat nnn⟩))⟩
  case seImm x nn | sneImm x nn =>
    cases h
    exact .inl ⟨by rwa [State.skipIf_fault], (skipIf_pc_cases s _).imp_right fun e => .inl ⟨e, x, 0, nn, by simp⟩⟩
  case seReg x y | sneReg x y =>
    cases h
    exact .inl ⟨by rwa [State.skipIf_fault], (skipIf_pc_cases s _).imp_right fun e => .inl ⟨e, x, y, 0, by simp⟩⟩
  all_goals cases h; exact .inl ⟨hf, .inl rfl⟩

end Sys2Proof.Proofs



/-! PROOFS. The step (spec/40_cycle.md R80-R88): what it answers in each of its cases, once forwards and once backwards, and the statements over every step that follow. -/

namespace Sys2Proof.Proofs

open Sys2Proof.Machine Sys2Proof.Laws

/-! ### The cases of a step -/

theorem step_of_fault {s : State} (hf : s.fault ≠ none) : step s = .fault .halted := by
  rcases step_cases s with ⟨-, e⟩ | ⟨h, -⟩ | ⟨h, -⟩
  · exact e
  all_goals exact absurd h hf

/-- With no fault recorded a step answers a next state, whatever the fetch gives. -/
theorem step_of_no_fault {s : State} (hf : s.fault = none) : ∃ t, step s = .next t := by
  rcases step_cases s with ⟨h, -⟩ | ⟨-, -, e⟩ | ⟨-, -, hi, lo, t, -, -, -, e⟩
  · exact absurd hf h
  · exact ⟨_, e⟩
  · exact ⟨_, e⟩

theorem step_of_fetch_error {s : State} {a : Nat} (hf : s.fault = none) (hw : s.fetchWord = .error a) :
    step s = .next (s.raiseInFetch a) := by
  simp only [step, hf, hw]

theorem step_of_fetch {s t : State} {w : Word} (hf : s.fault = none) (hw : s.fetchWord = .ok w)
    (he : exec (decodeWord w) s.beginExecute = .next t) : step s = .next (t.endStep s.pc) := by
  simp only [step, hf, hw, he, finishStep_next]

/-- The same where the execute phase raises no fault. -/
theorem step_of_fetch_of_no_fault {s t : State} {w : Word} (hf : s.fault = none) (hw : s.fetchWord = .ok w)
    (he : exec (decodeWord w) s.beginExecute = .next t) (ht : t.fault = none) : step s = .next (t.latchStall s.pc) := by
  rw [step_of_fetch hf hw he, endStep_of_no_fault t s.pc ht]

/-- A fetch fails at the first byte outside memory (R81). -/
theorem fetchWord_outside {s : State} (h : 4095 ≤ s.pc.toNat) :
    s.fetchWord = .error (if s.pc.toNat = 4095 then 4096 else s.pc.toNat) := by
  rcases fetchWord_cases s with ⟨hpc, -⟩ | ⟨-, e⟩
  · omega
  · exact e

theorem fetchWord_of_readByte {s : State} {hi lo : Byte} (hhi : Memory.readByte s.mem s.pc.toNat = some hi)
    (hlo : Memory.readByte s.mem (s.pc.toNat + 1) = some lo) : s.fetchWord = .ok (wordOfBytes hi lo) := by
  simp only [State.fetchWord, hhi, hlo]

/-- The step backwards: a step that answers a next state recorded a fault of the fetch, or ran the execute phase of the
fetched word. -/
theorem step_next_cases {s t : State} (h : step s = .next t) : s.fault = none ∧
    ((4095 ≤ s.pc.toNat ∧ t = s.raiseInFetch (if s.pc.toNat = 4095 then 4096 else s.pc.toNat)) ∨
     (s.pc.toNat < 4095 ∧ ∃ w u, s.fetchWord = .ok w ∧ exec (decodeWord w) s.beginExecute = .next u ∧
        t = u.endStep s.pc)) := by
  have hf : s.fault = none := by
    by_contra hf
    rw [step_of_fault hf] at h; cases h
  refine ⟨hf, ?_⟩
  rcases fetchWord_cases s with ⟨hpc, hi, lo, -, -, hw⟩ | ⟨hpc, hw⟩
  · obtain ⟨u, hu⟩ := exec_answers_next (decodeWord (wordOfBytes hi lo)) s.beginExecute
    rw [step_of_fetch hf hw hu] at h; cases h
    exact .inr ⟨hpc, _, u, hw, hu, rfl⟩
  · rw [step_of_fetch_error hf hw] at h; cases h
    exact .inl ⟨hpc, rfl⟩

/-- The comparison of the stall signal (R85), as a proposition decided. -/
theorem prevPc_beq (s : State) (a : Word) : (s.prevPc == some a) = decide (s.prevPc = some a) := by
  rw [Bool.eq_iff_iff, beq_iff_eq, decide_eq_true_iff]

/-! ### The statements about every step -/

/-- Settles O29: the two bytes are the fetched word, and the end of the step is the stall latch unless a fault is recorded. -/
theorem stepRunsTheDecodedInstruction : Obligations.StepRunsTheDecodedInstruction := by
  intro s t hi lo hf hhi hlo he
  have hw := fetchWord_of_readByte hhi hlo
  obtain ⟨-, -, (hprev : t.prevPc = s.prevPc), -⟩ := exec_keeps he
  by_cases ht : t.fault = none
  · rw [if_pos ht, step_of_fetch_of_no_fault hf hw he ht, State.latchStall, hprev, prevPc_beq]
  · rw [if_neg ht, step_of_fetch hf hw he, endStep_of_fault t s.pc ht]

/-- Settles O30: the fetch fails, and its fault changes the record and the outputs only. -/
theorem fetchOutsideMemoryRecordsTheFault : Obligations.FetchOutsideMemoryRecordsTheFault := fun s hf hpc =>
  ⟨_, step_of_fetch_error hf (fetchWord_outside hpc), rfl, raiseInFetch_changesOnly s _⟩

/-- Settles O31: a step stops in one of its cases only, that of a recorded fault. -/
theorem stepExistsExactlyWithoutAFault : Obligations.StepExistsExactlyWithoutAFault := fun _ =>
  ⟨step_of_no_fault, step_of_fault⟩

/-- A fault raised by the execute phase leaves of the whole step only the record and the cleared outputs: the fetch advance is
undone (R87). -/
theorem beginExecute_raiseInExecute_changesOnly (s : State) (k : FaultKind) (w : Word) (a : Option Nat) :
    ChangesOnly [.fault, .report, .stall] s (s.beginExecute.raiseInExecute k w a) := by
  intro p hp
  by_cases hpc : p = .pc
  · subst hpc
    exact BitVec.add_sub_cancel s.pc 2#16
  · exact (beginExecute_changesOnly s).trans (raiseInExecute_changesOnly _ k w a) p (by simp_all)

/-- Settles O32: a fault of the fetch writes the record and the outputs; so does a fault of the execute phase. -/
theorem faultingStepCommitsOnlyTheRecord : Obligations.FaultingStepCommitsOnlyTheRecord := by
  intro s t h ht
  obtain ⟨hf, ⟨-, rfl⟩ | ⟨-, w, u, -, hu, rfl⟩⟩ := step_next_cases h
  · exact ⟨raiseInFetch_changesOnly s _, rfl, rfl⟩
  · rw [endStep_fault] at ht
    rw [endStep_of_fault u s.pc ht]
    rcases exec_fault_cases hu with hkept | ⟨-, k, w', a, rfl, -⟩
    · exact absurd (hkept.trans hf) ht
    · exact ⟨beginExecute_raiseInExecute_changesOnly s k w' a, rfl, rfl⟩

/-- Settles O33: the end of a step that did not fault is the stall latch, and no execute phase touches `prev_pc`. -/
theorem completedStepLatchesItsStartingPc : Obligations.CompletedStepLatchesItsStartingPc := by
  intro s t h ht
  obtain ⟨-, ⟨-, rfl⟩ | ⟨-, w, u, -, hu, rfl⟩⟩ := step_next_cases h
  · cases ht
  · rw [endStep_fault] at ht
    obtain ⟨-, -, (hprev : u.prevPc = s.prevPc), -⟩ := exec_keeps hu
    rw [endStep_of_no_fault u s.pc ht]
    exact ⟨rfl, by rw [State.latchStall_stall, hprev, beq_iff_eq]⟩

/-- The end of a step changes no component but its own two. -/
theorem endStep_mem (t : State) (a : Word) : (t.endStep a).mem = t.mem := by
  unfold State.endStep; cases t.fault <;> rfl

/-- Settles O34: neither a fetch fault, nor an execute phase, nor the end of a step touches these components. -/
theorem stepKeepsMemoryTimersAndParameters : Obligations.StepKeepsMemoryTimersAndParameters := by
  intro s t h
  obtain ⟨-, ⟨-, rfl⟩ | ⟨-, w, u, -, hu, rfl⟩⟩ := step_next_cases h
  · exact ⟨rfl, rfl, rfl, rfl⟩
  · obtain ⟨hdt, hst, -, hparams⟩ := exec_keeps hu
    have hmem := exec_mem hu
    have hend := endStep_changesOnly u s.pc
    exact ⟨(endStep_mem u s.pc).trans hmem, (hend .dt (by simp)).trans hdt, (hend .st (by simp)).trans hst,
      (hend .params (by simp)).trans hparams⟩

/-! ### Noninterference -/

/-- Settles O40: a step reads neither output, and both are overwritten before it ends, so the two steps compute alike. -/
theorem stepDoesNotReadItsOutputs : Obligations.StepDoesNotReadItsOutputs := fun _ _ _ => rfl

theorem skipIf_writeTimers (s : State) (c : Bool) (d e : Byte) :
    (s.writeTimers d e).skipIf c = (s.skipIf c).writeTimers d e := by
  cases c <;> rfl

/-- An execute phase does with other timers what it does with these, and leaves them (R28, decision D22). -/
theorem exec_writeTimers {i : Instr} {s t : State} (d e : Byte) (h : exec i s = .next t) :
    exec i (s.writeTimers d e) = .next (t.writeTimers d e) := by
  cases i
  case ret =>
    cases hs : s.stack with
    | nil => rw [exec_ret_of_nil hs] at h; cases h; exact exec_ret_of_nil (s := s.writeTimers d e) hs
    | cons a rest => rw [exec_ret_of_cons hs] at h; cases h; exact exec_ret_of_cons (s := s.writeTimers d e) hs
  case call nnn =>
    by_cases hfull : s.sp = s.params.stackDepth
    · rw [exec_call_of_full hfull] at h; cases h; exact exec_call_of_full (s := s.writeTimers d e) hfull nnn
    · rw [exec_call_of_room hfull] at h; cases h; exact exec_call_of_room (s := s.writeTimers d e) hfull nnn
  case drw x y n =>
    have hsprite : spriteBytes (s.writeTimers d e) n = spriteBytes s n := rfl
    rw [exec_drw, execDrw] at h ⊢
    rw [hsprite]
    cases hb : spriteBytes s n <;> rw [hb] at h <;> cases h <;> rfl
  case seImm | sneImm | seReg | sneReg => cases h; exact congrArg _ (skipIf_writeTimers s _ d e)
  all_goals cases h; rfl

theorem endStep_writeTimers (t : State) (a : Word) (d e : Byte) :
    (t.writeTimers d e).endStep a = (t.endStep a).writeTimers d e := by
  unfold State.endStep
  rw [State.writeTimers_fault]
  cases t.fault <;> rfl

/-- Settles O41: the fetch, the execute phase and the end of the step each commute with a write of the timers. -/
theorem timersAreInvisibleToEveryStep : Obligations.TimersAreInvisibleToEveryStep := by
  refine fun s d e => ⟨fun t h => ?_, fun r h => ?_⟩
  · obtain ⟨hf, ⟨hpc, rfl⟩ | ⟨-, w, u, hw, hu, rfl⟩⟩ := step_next_cases h
    · exact step_of_fetch_error (s := s.writeTimers d e) hf (fetchWord_outside hpc)
    · rw [← endStep_writeTimers]
      exact step_of_fetch (s := s.writeTimers d e) hf hw (exec_writeTimers d e hu)
  · cases r
    refine step_of_fault (s := s.writeTimers d e) fun hf => ?_
    obtain ⟨t, ht⟩ := step_of_no_fault (s := s) hf
    rw [ht] at h; cases h

end Sys2Proof.Proofs



/-! PROOFS. Steps of particular words (spec/40_cycle.md R84-R86, 41_control_flow.md R91, R92): UNHANDLED words, a CALL and its RET, a jump to itself, and what the host's call of a step returns. -/

namespace Sys2Proof.Proofs

open Sys2Proof.Machine Sys2Proof.Laws

/-! ### UNHANDLED words (R65, R84) -/

/-- The instruction is a term of one of the five UNHANDLED rows. -/
def IsUnhandled (i : Instr) : Prop :=
  ∃ low, i = .unhandled0 low ∨ i = .unhandled8 low ∨ i = .unhandledC low ∨ i = .unhandledE low ∨ i = .unhandledF low

/-- The five UNHANDLED regions of R65, on the word. -/
def InUnhandledRegion (w : Word) : Prop :=
  (w.toNat < 4096 ∧ w ≠ 0x00E0#16 ∧ w ≠ 0x00EE#16) ∨
  (w.toNat / 4096 = 8 ∧ ((8 ≤ w.toNat % 16 ∧ w.toNat % 16 ≤ 13) ∨ w.toNat % 16 = 15)) ∨
  w.toNat / 4096 = 12 ∨ 14 ≤ w.toNat / 4096

theorem exec_of_isUnhandled {i : Instr} (h : IsUnhandled i) (s : State) :
    exec i s = .next (s.reportUnknown (encode i)) := by
  obtain ⟨low, rfl | rfl | rfl | rfl | rfl⟩ := h <;> rfl

/-- Only an UNHANDLED row writes a report. -/
theorem report_not_mem_partsWritten {i : Instr} (h : ¬ IsUnhandled i) : .report ∉ partsWritten i := by
  cases i <;> simp_all [partsWritten, IsUnhandled]

theorem isUnhandled_decodeWord {w : Word} (h : InUnhandledRegion w) : IsUnhandled (decodeWord w) := by
  unfold InUnhandledRegion at h
  unfold decodeWord
  split
  case h_1 hc =>
    rw [fieldClass_toNat] at hc
    have hne : w ≠ 0x00E0#16 ∧ w ≠ 0x00EE#16 := by rcases h with h | h; exacts [h.2, by omega]
    rw [decodeClass0, if_neg hne.1, if_neg hne.2]
    exact ⟨_, .inl rfl⟩
  case h_9 hc =>
    rw [fieldClass_toNat] at hc
    have hop : ¬ isAluOp (fieldN w) = true := by rw [isAluOp_iff, fieldN_toNat]; omega
    rw [decodeClass8_of_not_isAluOp w hop]
    exact ⟨_, .inr (.inl rfl)⟩
  case h_13 => exact ⟨_, .inr (.inr (.inl rfl))⟩
  case h_15 => exact ⟨_, .inr (.inr (.inr (.inl rfl)))⟩
  case h_16 => exact ⟨_, .inr (.inr (.inr (.inr rfl)))⟩
  all_goals
    next hc => rw [fieldClass_toNat] at hc; omega

/-- An UNHANDLED word is not of class 5 or 9, so the report holds the word as fetched. -/
theorem encode_decodeWord_of_isUnhandled {w : Word} (h : IsUnhandled (decodeWord w)) : encode (decodeWord w) = w := by
  have hw := encode_decodeWord_toNat w
  have hclass : (encode (decodeWord w)).toNat / 4096 ≠ 5 ∧ (encode (decodeWord w)).toNat / 4096 ≠ 9 := by
    obtain ⟨low, e | e | e | e | e⟩ := h <;> rw [e, encode, toNat_class_nnn] <;> simp only [BitVec.toNat_ofNat] <;> omega
  apply BitVec.eq_of_toNat_eq
  split_ifs at hw <;> omega

/-- The step of an UNHANDLED word: report it, then latch the starting pc. -/
theorem step_of_isUnhandled {s : State} {w : Word} (hf : s.fault = none) (hw : s.fetchWord = .ok w)
    (h : IsUnhandled (decodeWord w)) : step s = .next ((s.beginExecute.reportUnknown w).latchStall s.pc) := by
  have he := exec_of_isUnhandled h s.beginExecute
  rw [encode_decodeWord_of_isUnhandled h] at he
  exact step_of_fetch_of_no_fault hf hw he hf

/-- The address in a report is that of the instruction, since the fetch has advanced pc by 2. -/
theorem report_beginExecute_reportUnknown (s : State) (w : Word) :
    (s.beginExecute.reportUnknown w).report = some ⟨s.pc, w⟩ := by
  rw [State.reportUnknown_report, State.beginExecute_pc, BitVec.add_sub_cancel]

/-- Settles O28: a word of the five regions is UNHANDLED, and its step is the fetch advance, the report and the stall latch. -/
theorem stepOfUnhandledWordReportsIt : Obligations.StepOfUnhandledWordReportsIt := by
  intro s w hf hw hregion
  refine ⟨_, step_of_isUnhandled hf hw (isUnhandled_decodeWord hregion), report_beginExecute_reportUnknown s w, rfl, rfl, ?_⟩
  have hparts := ((beginExecute_changesOnly s).trans (reportUnknown_changesOnly _ w)).trans (latchStall_changesOnly _ s.pc)
  exact hparts.mono (by simp)

/-! ### CALL and RET (R90, R92) -/

/-- The step of a CALL with room on the stack. -/
theorem step_of_call {s : State} {nnn : Addr12} (hf : s.fault = none) (hw : s.fetchWord = .ok (0x2#4 ++ nnn))
    (hroom : s.sp ≠ s.params.stackDepth) : ∃ t, step s = .next t ∧ t.fault = none ∧ t.mem = s.mem ∧ t.pc = zext16 nnn ∧
      t.stack = (s.pc + 2#16) :: s.stack := by
  have he := exec_call_of_room (s := s.beginExecute) hroom nnn
  rw [← decodeWord_call nnn] at he
  exact ⟨_, step_of_fetch_of_no_fault hf hw he hf, hf, rfl, rfl, rfl⟩

/-- The step of a RET with an entry on the stack. -/
theorem step_of_ret {s : State} {a : Word} {rest : List Word} (hf : s.fault = none) (hw : s.fetchWord = .ok 0x00EE#16)
    (hs : s.stack = a :: rest) : ∃ t, step s = .next t ∧ t.fault = none ∧ t.pc = a ∧ t.stack = rest := by
  have he := exec_ret_of_cons (s := s.beginExecute) hs
  rw [← decodeWord_ret] at he
  exact ⟨_, step_of_fetch_of_no_fault hf hw he hf, hf, rfl, rfl⟩

/-- Settles O38: the CALL pushes the address after it, and the RET at its target pops that address. -/
theorem callThenRetReturnsAfterTheCall : Obligations.CallThenRetReturnsAfterTheCall := by
  intro s nnn hf hroom hw hhi hlo
  obtain ⟨t, hst, htf, hmem, hpc, hstack⟩ := step_of_call hf hw hroom
  have hret : t.fetchWord = .ok (wordOfBytes 0x00#8 0xEE#8) :=
    fetchWord_of_readByte (by rwa [hmem, hpc, zext16_toNat]) (by rwa [hmem, hpc, zext16_toNat])
  rw [show wordOfBytes 0x00#8 0xEE#8 = 0x00EE#16 by decide] at hret
  obtain ⟨u, htu, huf, hupc, hustack⟩ := step_of_ret htf hret hstack
  exact ⟨t, u, hst, htu, hupc, hustack, huf⟩

/-! ### A jump to itself (R85, R91) -/

/-- The machine is about to run a jump to the address it is at. -/
structure AtSelfJump (nnn : Addr12) (s : State) : Prop where
  fault : s.fault = none
  pc : s.pc = zext16 nnn
  fetch : s.fetchWord = .ok (0x1#4 ++ nnn)

/-- A fetch depends on memory and pc only. -/
theorem fetchWord_congr {s t : State} (hmem : t.mem = s.mem) (hpc : t.pc = s.pc) : t.fetchWord = s.fetchWord := by
  rw [State.fetchWord, hmem, hpc, State.fetchWord]

/-- A jump to itself leads to itself, with the stall latch set. -/
theorem AtSelfJump.step {nnn : Addr12} {s : State} (h : AtSelfJump nnn s) :
    ∃ t, step s = .next t ∧ AtSelfJump nnn t ∧ t.prevPc = some t.pc ∧ (s.prevPc = some s.pc → t.stall = true) := by
  have he : exec (decodeWord (0x1#4 ++ nnn)) s.beginExecute = .next (s.beginExecute.setPc (zext16 nnn)) := by
    rw [decodeWord_jp, exec_jp]
  refine ⟨_, step_of_fetch_of_no_fault h.fault h.fetch he h.fault, ⟨h.fault, rfl, ?_⟩, congrArg some h.pc, fun hprev => ?_⟩
  · refine (fetchWord_congr ?_ ?_).trans h.fetch
    exacts [rfl, h.pc.symm]
  · rw [State.latchStall_stall]; exact beq_iff_eq.2 hprev

/-- Once the latch holds its own pc, every further step of a jump to itself raises the stall signal. -/
theorem AtSelfJump.run {nnn : Addr12} {s : State} (h : AtSelfJump nnn s) (hprev : s.prevPc = some s.pc) (k : Nat) :
    ∃ t, Sys2Proof.core.run (k + 1) s = .next t ∧ AtSelfJump nnn t ∧ t.stall = true := by
  obtain ⟨t, hst, ht, hprev', hstall⟩ := h.step
  rw [run_succ k s t hst]
  induction k generalizing s t with
  | zero => exact ⟨t, rfl, ht, hstall hprev⟩
  | succ k ih =>
    obtain ⟨u, htu, hu, hprev'', hstall'⟩ := ht.step
    rw [run_succ k t u htu]
    exact ih ht hprev' u htu hu hprev'' hstall'

/-- Settles O39: the first step sets the latch, and from then on the signal is raised. -/
theorem selfJumpRaisesStallFromTheSecondStep : Obligations.SelfJumpRaisesStallFromTheSecondStep := by
  intro s nnn k hf hpc hw
  have hpc' : s.pc = zext16 nnn := BitVec.eq_of_toNat_eq (hpc.trans (zext16_toNat nnn).symm)
  obtain ⟨t, hst, ht, hprev, -⟩ := AtSelfJump.step ⟨hf, hpc', hw⟩
  obtain ⟨u, hrun, hu, hstall⟩ := ht.run hprev k
  exact ⟨u, (run_succ (k + 1) s t hst).trans hrun, hu.pc.trans hpc'.symm, hstall, hu.fault⟩

/-! ### What the host's call returns (R86) -/

theorem stepCall_of_next {s t : State} (h : step s = .next t) : stepCall s = some (t, t.result) := by
  rw [stepCall, h]

theorem result_of_fault {t : State} {r : FaultRecord} (h : t.fault = some r) : t.result = .fault r := by
  rw [State.result, h]

theorem result_of_report {t : State} {r : Report} (hf : t.fault = none) (h : t.report = some r) :
    t.result = .reported r t.stall := by
  rw [State.result, hf, h]

theorem result_of_no_report {t : State} (hf : t.fault = none) (h : t.report = none) : t.result = .ok t.stall := by
  rw [State.result, hf, h]

/-- What a step that did not fault leaves in the outputs: the stall signal, and a report exactly of an UNHANDLED word. -/
theorem step_outputs {s t : State} (h : step s = .next t) (ht : t.fault = none) :
    t.stall = decide (s.prevPc = some s.pc) ∧ ∃ w, s.fetchWord = .ok w ∧
      (IsUnhandled (decodeWord w) → t.report = some ⟨s.pc, w⟩) ∧ (¬ IsUnhandled (decodeWord w) → t.report = none) := by
  obtain ⟨-, hstall⟩ := completedStepLatchesItsStartingPc s t h ht
  refine ⟨by rw [Bool.eq_iff_iff, decide_eq_true_iff]; exact hstall, ?_⟩
  obtain ⟨hf, ⟨-, rfl⟩ | ⟨-, w, u, hw, hu, rfl⟩⟩ := step_next_cases h
  · cases ht
  refine ⟨w, hw, fun hun => ?_, fun hun => ?_⟩
  · rw [step_of_isUnhandled hf hw hun] at h
    rw [← Host.Outcome.next.inj h]
    exact report_beginExecute_reportUnknown s w
  · exact (endStep_changesOnly u s.pc .report (by simp)).trans
      (exec_same hu .report (report_not_mem_partsWritten hun) nofun nofun)

/-- Settles O50: the result is read off the fault record and the outputs. -/
theorem stepCallReturnsOneOfThreeResults : Obligations.StepCallReturnsOneOfThreeResults := by
  refine fun s => ⟨fun hf => by rw [stepCall, step_of_fault hf], fun hf => ?_⟩
  obtain ⟨t, h⟩ := step_of_no_fault hf
  refine ⟨t, t.result, h, stepCall_of_next h, fun f hft => result_of_fault hft, fun ht => ?_⟩
  obtain ⟨hstall, w, hw, hreport, hnone⟩ := step_outputs h ht
  refine ⟨w, hw, fun hun => ?_, fun hun => ?_⟩
  · rw [result_of_report ht (hreport hun), hstall]
  · have hun' : ¬ IsUnhandled (decodeWord w) := by
      rintro ⟨low, hlow⟩
      have hrows := hun low
      tauto
    rw [result_of_no_report ht (hnone hun'), hstall]

end Sys2Proof.Proofs



/-! PROOFS. The invariant (spec/10_state.md R24-R26, 60_exceptions.md R146): construction and the host's load establish it, every step keeps it. -/

namespace Sys2Proof.Proofs

open Sys2Proof.Machine

/-! ### Every step keeps it -/

/-- The index of Bnnn, in either variant, is at most 0xFFF + 0xFF (R25). -/
theorem bnnnIndex_le (variant : BnnnVariant) (nnn : Addr12) (v0 : Byte) :
    (bnnnIndex variant nnn v0).toNat ≤ 0x10FE := by
  cases variant with
  | iPlusV0 => rw [bnnnIndex_iPlusV0_toNat]; omega
  | iPlain => rw [bnnnIndex_iPlain_toNat]; omega

/-- An execute phase leaves I, or loads a value within its bound. -/
theorem exec_i_le {i : Instr} {s t : State} (h : exec i s = .next t) (hi : s.i.toNat ≤ 0x10FE) : t.i.toNat ≤ 0x10FE := by
  by_cases hne : t.i = s.i
  · rwa [hne]
  obtain ⟨nnn, rfl | rfl⟩ := writer_of_i (mem_partsWritten_of_change h .i nofun nofun hne)
  · cases h
    rw [State.setI_i, zext16_toNat]; omega
  · cases h
    exact bnnnIndex_le _ _ _

/-- What an execute phase can do to the stack: nothing, a pop, or a push of pc where there is room. -/
theorem exec_stack_cases {i : Instr} {s t : State} (h : exec i s = .next t) :
    t.stack = s.stack ∨ (∃ a, s.stack = a :: t.stack) ∨ (s.sp ≠ s.params.stackDepth ∧ t.stack = s.pc :: s.stack) := by
  by_cases hne : t.stack = s.stack
  · exact .inl hne
  obtain rfl | ⟨nnn, rfl⟩ := writer_of_stack (mem_partsWritten_of_change h .stack nofun nofun hne)
  · cases hs : s.stack with
    | nil => rw [exec_ret_of_nil hs] at h; cases h; exact absurd rfl hne
    | cons a rest => rw [exec_ret_of_cons hs] at h; cases h; exact .inr (.inl ⟨a, rfl⟩)
  · by_cases hroom : s.sp = s.params.stackDepth
    · rw [exec_call_of_full hroom] at h; cases h; exact absurd rfl hne
    · rw [exec_call_of_room hroom] at h; cases h; exact .inr (.inr ⟨hroom, rfl⟩)

/-- The bound of pc after an execute phase that was given a pc after a fetch (R24). -/
theorem exec_pc_le {i : Instr} {s t : State} (h : exec i s = .next t) (hf : s.fault = none) (hlow : 2 ≤ s.pc.toNat)
    (hpc : s.pc.toNat ≤ 4096) (hstack : ∀ a ∈ s.stack, a.toNat ≤ 4096) : t.pc.toNat ≤ 4098 := by
  obtain ⟨-, e | ⟨e, -⟩ | ⟨nnn, -, e⟩ | ⟨-, e⟩⟩ | ⟨-, e, -⟩ := pcChangesInOneOfFourWays i s t hf h
  · rw [e]; omega
  · rw [e, BitVec.toNat_add, BitVec.toNat_ofNat]; omega
  · omega
  · have hpop := hstack t.pc (e ▸ List.mem_cons_self)
    omega
  · rw [e, BitVec.toNat_sub, BitVec.toNat_ofNat]; omega

/-- The execute phase of a step that starts in the invariant ends in it. -/
theorem exec_keeps_inv {i : Instr} {s t : State} (hinv : s.Inv) (hf : s.fault = none) (hpc : s.pc.toNat < 4095)
    (h : exec i s.beginExecute = .next t) : t.Inv := by
  have hmem := exec_mem h
  obtain ⟨-, -, -, hparams⟩ := exec_keeps h
  have hstart := pc_advance_toNat s.pc hpc
  have hstack := exec_stack_cases h
  simp only [State.sp, State.beginExecute_mem, State.beginExecute_params, State.beginExecute_stack,
    State.beginExecute_pc] at hmem hparams hstack
  have hbound : s.stack.length ≤ s.params.stackDepth := hinv.stack_bounded
  constructor
  case mem_wf => rw [hmem]; exact hinv.mem_wf
  case depth_pos => rw [hparams]; exact hinv.depth_pos
  case stack_bounded =>
    rw [hparams, State.sp]
    rcases hstack with e | ⟨a, e⟩ | ⟨hroom, e⟩
    · rwa [e]
    · rw [e, List.length_cons] at hbound; omega
    · rw [e, List.length_cons]; omega
  case pc_bounded =>
    have hpc' : s.beginExecute.pc.toNat = s.pc.toNat + 2 := hstart
    exact exec_pc_le h hf (by omega) (by omega) hinv.stack_entries
  case stack_entries =>
    intro a ha
    rcases hstack with e | ⟨b, e⟩ | ⟨-, e⟩
    · exact hinv.stack_entries a (e ▸ ha)
    · exact hinv.stack_entries a (e ▸ List.mem_cons_of_mem b ha)
    · rcases List.mem_cons.1 (e ▸ ha) with rfl | hold
      · omega
      · exact hinv.stack_entries a hold
  case i_bounded => exact exec_i_le h hinv.i_bounded
  case fault_wf =>
    intro r hr
    rcases exec_fault_cases h with hkept | ⟨-, k, w, a, rfl, hwf⟩
    · rw [hkept] at hr; exact hinv.fault_wf r hr
    · cases hr; exact hwf

/-- The stall signal and the stall latch are outside the invariant. -/
theorem endStep_keeps_inv {t : State} (a : Word) (h : t.Inv) : (t.endStep a).Inv := by
  by_cases ht : t.fault = none
  · rw [endStep_of_no_fault t a ht]
    exact ⟨h.mem_wf, h.depth_pos, h.stack_bounded, h.pc_bounded, h.stack_entries, h.i_bounded, h.fault_wf⟩
  · rwa [endStep_of_fault t a ht]

/-- A new fault record is the only part of the invariant to check when it is all that has changed. -/
theorem recordFault_keeps_inv {s : State} {r : FaultRecord} (h : s.Inv) (hr : r.wf) : (s.recordFault r).Inv :=
  ⟨h.mem_wf, h.depth_pos, h.stack_bounded, h.pc_bounded, h.stack_entries, h.i_bounded, fun r' e => by cases e; exact hr⟩

theorem raiseInFetch_keeps_inv {s : State} {a : Nat} (h : s.Inv) (ha : 4096 ≤ a) : (s.raiseInFetch a).Inv := by
  have hcleared : State.Inv { s with report := none, stall := false } :=
    ⟨h.mem_wf, h.depth_pos, h.stack_bounded, h.pc_bounded, h.stack_entries, h.i_bounded, h.fault_wf⟩
  exact recordFault_keeps_inv hcleared ha

/-- Settles O42: a fetch fault, an execute phase and the end of a step each keep the invariant. -/
theorem stepKeepsTheInvariant : Obligations.StepKeepsTheInvariant := by
  intro s t hinv h
  obtain ⟨hf, ⟨hpc, rfl⟩ | ⟨hpc, w, u, -, hu, rfl⟩⟩ := step_next_cases h
  · exact raiseInFetch_keeps_inv hinv (by split_ifs <;> omega)
  · exact endStep_keeps_inv s.pc (exec_keeps_inv hinv hf hpc hu)

/-! ### Construction and the load establish it -/

theorem construct_inv (p : Params) (font : Vector Byte 80) (h : 1 ≤ p.stackDepth) : (State.construct p font).Inv where
  mem_wf := State.construct_mem_wf p font
  depth_pos := h
  stack_bounded := Nat.zero_le _
  pc_bounded := (by decide : loadOffset.toNat ≤ 4098)
  stack_entries := nofun
  i_bounded := Nat.zero_le _
  fault_wf := nofun

/-- The host's load keeps the invariant, whether the image fits or not. -/
theorem loadProgram_keeps_inv {s : State} (h : s.Inv) (image : List Byte) (offset : Word) (hoff : offset.toNat ≤ 4098) :
    (s.loadProgram image offset).Inv := by
  rw [State.loadProgram]
  rcases loadCall_cases s image offset with ⟨-, hout, e⟩ | ⟨-, e⟩ <;> rw [e]
  · have hr : 4096 ≤ offset.toNat + image.length - 1 := by omega
    exact recordFault_keeps_inv h hr
  · exact ⟨Memory.writeBytes_wf _ _ _ h.mem_wf, h.depth_pos, h.stack_bounded, hoff, h.stack_entries, h.i_bounded,
      h.fault_wf⟩

/-- Settles O44: construction establishes the invariant and the load at 0x200 keeps it. -/
theorem bootedMachineSatisfiesTheInvariant : Obligations.BootedMachineSatisfiesTheInvariant := fun p font image h =>
  loadProgram_keeps_inv (construct_inv p font h) image loadOffset (by decide)

/-- Settles O43: reset is construction with the default parameters. -/
theorem resetSatisfiesTheInvariant : Obligations.ResetSatisfiesTheInvariant := by
  have h := construct_inv defaultParams defaultFont (by decide)
  rwa [State.construct_default] at h

end Sys2Proof.Proofs



/-! PROOFS. Memory, construction, the state after reset and the host's load (spec/10_state.md R30-R34, 20_memory.md R41-R50, 70_reset_and_hazards.md R160-R163), and the codes of R140. -/

namespace Sys2Proof.Proofs

open Sys2Proof.Machine

/-! ### Construction and reset (R31, R34, R160) -/

/-- Outside the font window, a memory that lists nothing reads 0. -/
theorem readByte_nil_outside_font {a : Nat} (ha : a < 4096) (h : a < 0x50 ∨ 0xA0 ≤ a) :
    Memory.readByte [] a = some 0#8 := by
  have hunlisted : unlistedByte a = 0#8 := by
    rw [unlistedByte]
    split_ifs with hbase
    · have hlen : fontTable.length = 80 := rfl
      rw [List.getD_eq_default]
      rw [hlen]; simp only [fontBase] at *; omega
    · rfl
  rw [Memory.readByte, if_pos ha, Memory.lookup, Option.getD_none, hunlisted]

/-- Construction's memory is FONT in its window, and reset memory elsewhere. -/
theorem readByte_construct (p : Params) (font : Vector Byte 80) (a : Nat) :
    Memory.readByte (State.construct p font).mem a =
      if 0x50 ≤ a ∧ a < 0xA0 then font.toList[a - 0x50]? else Memory.readByte [] a := by
  have hlen : font.toList.length = 80 := Vector.length_toList
  rw [State.construct, Memory.readByte_writeBytes [] fontBase a _ Memory.wf_nil, hlen]
  refine if_congr ?_ rfl rfl
  simp only [fontBase, memSize]; omega

/-- Settles O46: inside the window FONT's byte, outside it 0. -/
theorem constructionInstallsAnyFont : Obligations.ConstructionInstallsAnyFont := by
  refine fun p font a ha => ⟨rfl, fun h hlow => ?_, fun hout => ?_⟩
  · rw [readByte_construct, if_pos (by omega)]
    simp [h]
  · rw [readByte_construct, if_neg (by omega), readByte_nil_outside_font ha hout]

@[simp] theorem reset_getV (r : Reg) : State.reset.getV r = 0#8 := by
  simp [State.getV, State.reset]

/-- Settles O45: component by component; the font bytes are a closed read. -/
theorem resetStateIsAsTheSpecLists : Obligations.ResetStateIsAsTheSpecLists :=
  ⟨rfl, rfl, rfl, rfl, rfl, rfl, rfl, reset_getV, pixel_blankFrame,
    fun _ ha => readByte_nil_outside_font (by omega) (.inl ha),
    fun _ hlow ha => readByte_nil_outside_font ha (.inr hlow),
    rfl, State.construct_default⟩

/-! ### Memory reads (R41) -/

/-- Settles O47: the law of reading one byte. -/
theorem memReadFailsExactlyOutsideMemory : Obligations.MemReadFailsExactlyOutsideMemory := Memory.readByte_eq_none

/-! ### The host's load (R44, R156, R163) -/

/-- The image is empty or lies inside memory. -/
def Fits (image : List Byte) (offset : Word) : Prop := image = [] ∨ offset.toNat + image.length ≤ 4096

theorem loadCall_of_fits {image : List Byte} {offset : Word} (h : Fits image offset) (s : State) :
    loadCall s image offset = ({ s with mem := Memory.writeBytes s.mem offset.toNat image, pc := offset }, .ok) := by
  rcases loadCall_cases s image offset with ⟨hne, hout, -⟩ | ⟨-, e⟩
  · rcases h with rfl | h
    · exact absurd hne (Nat.lt_irrefl 0)
    · omega
  · exact e

theorem loadCall_of_not_fits {image : List Byte} {offset : Word} (hne : image ≠ [])
    (hout : 4096 < offset.toNat + image.length) (s : State) : loadCall s image offset =
      (s.recordFault ⟨.outOfBoundsAccess, none, none, some (offset.toNat + image.length - 1)⟩,
        .outOfBoundsAccess (offset.toNat + image.length - 1)) := by
  rcases loadCall_cases s image offset with ⟨-, -, e⟩ | ⟨h | h, -⟩
  · exact e
  · exact absurd h hne
  · omega

theorem loadProgram_of_fits {image : List Byte} {offset : Word} (h : Fits image offset) (s : State) :
    s.loadProgram image offset = { s with mem := Memory.writeBytes s.mem offset.toNat image, pc := offset } := by
  rw [State.loadProgram, loadCall_of_fits h]

theorem loadProgram_of_not_fits {image : List Byte} {offset : Word} (hne : image ≠ [])
    (hout : 4096 < offset.toNat + image.length) (s : State) : s.loadProgram image offset =
      s.recordFault ⟨.outOfBoundsAccess, none, none, some (offset.toNat + image.length - 1)⟩ := by
  rw [State.loadProgram, loadCall_of_not_fits hne hout]

theorem recordFault_changesOnly (s : State) (r : FaultRecord) : ChangesOnly [.fault] s (s.recordFault r) := by
  intro p hp
  cases p
  case fault => exact absurd (List.mem_singleton_self _) hp
  all_goals rfl

/-- Each byte of an image that fits is read back at its address. -/
theorem readByte_loadProgram {s : State} {image : List Byte} {offset : Word} (hwf : Memory.wf s.mem = true)
    (h : Fits image offset) (j : Nat) (hj : j < image.length) :
    Memory.readByte (s.loadProgram image offset).mem (offset.toNat + j) = some image[j] := by
  have hin : offset.toNat + image.length ≤ 4096 := by
    rcases h with rfl | h
    · exact absurd hj (Nat.not_lt_zero j)
    · exact h
  rw [loadProgram_of_fits h, Memory.readByte_writeBytes _ _ _ _ hwf,
    if_pos ⟨Nat.le_add_right _ _, Nat.add_lt_add_left hj _, by simp only [memSize]; omega⟩, Nat.add_sub_cancel_left,
    List.getElem?_eq_getElem hj]

/-- Settles O48: the load is the write of its bytes and of pc, or the record of its fault. -/
theorem loadProgramStoresTheImageOrFaults : Obligations.LoadProgramStoresTheImageOrFaults := by
  refine fun s image offset hwf => ⟨fun h => ⟨readByte_loadProgram hwf h, fun a ha => ?_, ?_, fun p hpc hmem => ?_⟩,
    fun hne hout => ?_⟩
  · rw [loadProgram_of_fits h, Memory.readByte_writeBytes _ _ _ _ hwf, if_neg (by omega)]
  · rw [loadProgram_of_fits h]
  · rw [loadProgram_of_fits h]
    cases p
    case pc => exact absurd rfl hpc
    case mem a => exact absurd rfl (hmem a)
    all_goals rfl
  · rw [loadProgram_of_not_fits hne hout]
    exact ⟨rfl, recordFault_changesOnly s _⟩

/-- Settles O49: the load leaves pc at the offset, where the first two bytes of the image are read back. -/
theorem loadIsSeenByTheNextFetch : Obligations.LoadIsSeenByTheNextFetch := by
  intro s hi lo rest offset hwf hin
  have hfits : Fits (hi :: lo :: rest) offset := .inr (by simp only [List.length_cons]; omega)
  have hpc : (s.loadProgram (hi :: lo :: rest) offset).pc = offset := by rw [loadProgram_of_fits hfits]
  have hhi := readByte_loadProgram hwf hfits 0 (by simp)
  have hlo := readByte_loadProgram hwf hfits 1 (by simp)
  exact fetchWord_of_readByte (hpc.symm ▸ hhi) (hpc.symm ▸ hlo)

/-- Settles O52: the two answers of the load, each beside the state of `loadProgram`. -/
theorem loadCallAnswersOkOrOutOfBounds : Obligations.LoadCallAnswersOkOrOutOfBounds := fun s image offset =>
  ⟨fun h => by rw [State.loadProgram, loadCall_of_fits h],
    fun hne hout => by rw [State.loadProgram, loadCall_of_not_fits hne hout]⟩

/-! ### The codes (R140) -/

theorem faultCode_of_some {s : State} {r : FaultRecord} (h : s.fault = some r) : s.faultCode = r.kind.code := by
  simp only [State.faultCode, h, FaultRecord.code]

/-- Settles O51: the codes as defined, and the code of a state by what its fault record holds. -/
theorem errorCodesAreAsListed : Obligations.ErrorCodesAreAsListed :=
  ⟨rfl, rfl, rfl, rfl, fun _ => rfl, faultCode_of_none, fun _ _ => faultCode_of_some⟩

end Sys2Proof.Proofs
